-- ==== Sys2Proof/Word.lean ====
section
/-! DEFINITION. The words of the block: bytes of a frame buffer, command words and response words. -/

namespace Sys2Proof

/-- A `u8` of the spec: one byte of a frame buffer, one channel value (R6, R71). -/
abbrev Byte := BitVec 8

/-- A command word: one length, one format (R80, R85). Its width is the spec's `CMD_BITS` (R5). -/
abbrev CommandWord := BitVec 96

/-- A response word (R86). -/
abbrev ResponseWord := BitVec 32

end Sys2Proof
end

