-- ==== Sys2Proof/Syntax.lean ====
section
/-! DEFINITION. The commands of the block, one constructor per row of spec/opcode_table.json (R81). -/

namespace Sys2Proof

/-- `channel_format` (R73). -/
inductive ChannelFormat where
  /-- 3 channels in wire order R, G, B. -/
  | rgb
  /-- 4 channels in wire order G, R, B, W. -/
  | grbw
deriving DecidableEq, Repr

/-- A colour sample as the command word carries it, `s0` the channel that goes on the wire first
(R71, R83). A 3-channel strip ignores `s3`. -/
structure Sample where
  s0 : Byte
  s1 : Byte
  s2 : Byte
  s3 : Byte
deriving DecidableEq, Repr

/-- A decoded command. Operands are unsigned integers used as they stand (R82). -/
inductive Instr where
  /-- CREATE (R110). -/
  | create (format : ChannelFormat) (gpio ledCount resolutionHz : Nat)
  /-- SET_PIXEL (R112). -/
  | setPixel (h index : Nat) (sample : Sample)
  /-- CLEAR (R114). -/
  | clear (h : Nat)
  /-- REFRESH (R116). -/
  | refresh (h : Nat)
  /-- REFRESH_WAIT (R118). -/
  | refreshWait (h timeoutMs : Nat)
  /-- ENABLE (R122). -/
  | enable (h : Nat)
  /-- DISABLE (R124). -/
  | disable (h : Nat)
  /-- DESTROY (R126). -/
  | destroy (h : Nat)
deriving DecidableEq, Repr

end Sys2Proof
end

