-- ==== Sys2Proof/WellFormed.lean ====
section
/-! DEFINITION. A command is well formed when every operand fits the field that carries it (R80, R82). -/

namespace Sys2Proof

/-- An operand of the 8-bit fields `h` and `g` (R80). -/
abbrev Fits8 (n : Nat) : Prop := n < 2 ^ 8

/-- An operand of the 32-bit fields `a` and `b` (R80). -/
abbrev Fits32 (n : Nat) : Prop := n < 2 ^ 32

/-- Every operand fits its field (R80 to R83). A `led_count` or `resolution_hz` of 0 is well formed:
CREATE answers it with an error (R110). -/
def Instr.wellFormed : Instr → Bool
  | .create _ gpio ledCount resolutionHz =>
    decide (Fits8 gpio ∧ Fits32 ledCount ∧ Fits32 resolutionHz)
  | .setPixel h index _ => decide (Fits8 h ∧ Fits32 index)
  | .clear h => decide (Fits8 h)
  | .refresh h => decide (Fits8 h)
  | .refreshWait h timeoutMs => decide (Fits8 h ∧ Fits32 timeoutMs)
  | .enable h => decide (Fits8 h)
  | .disable h => decide (Fits8 h)
  | .destroy h => decide (Fits8 h)

/-- The check as a proposition. -/
abbrev Instr.WellFormed (i : Instr) : Prop := i.wellFormed = true

end Sys2Proof
end

