-- ==== Sys2Proof/Decode.lean ====
section
/-! DEFINITION. Command words: the fields of R80, the decoder of R81 to R84, the encoder, the opcode
table's match and mask values, and the listing syntax of R88. -/

namespace Sys2Proof

/-- Why a word is illegal (R84). -/
inductive DecodeError where
  /-- `op` is not one of 0x01 to 0x08. -/
  | reservedOpcode (op : Nat)
  /-- A reserved field of the command `op` is not zero. -/
  | reservedField (op : Nat)
deriving DecidableEq, Repr

/-- Bits 95:88 (R80). -/
def opField (w : CommandWord) : Nat := (w.extractLsb' 88 8).toNat
/-- Bits 87:80 (R80). -/
def hField (w : CommandWord) : Nat := (w.extractLsb' 80 8).toNat
/-- Bits 79:72 (R80). -/
def cField (w : CommandWord) : Nat := (w.extractLsb' 72 8).toNat
/-- Bits 71:64 (R80). -/
def gField (w : CommandWord) : Nat := (w.extractLsb' 64 8).toNat
/-- Bits 63:32 (R80). -/
def aField (w : CommandWord) : Nat := (w.extractLsb' 32 32).toNat
/-- Bits 31:0 (R80). -/
def bField (w : CommandWord) : Nat := (w.extractLsb' 0 32).toNat

/-- The sample in field `b`: `s0` in its most significant byte (R83). -/
def sampleField (w : CommandWord) : Sample where
  s0 := w.extractLsb' 24 8
  s1 := w.extractLsb' 16 8
  s2 := w.extractLsb' 8 8
  s3 := w.extractLsb' 0 8

/-- `channel_format` in bit 0 of field `c` (R73, R81). -/
def formatOfCode (c : Nat) : ChannelFormat := if c = 0 then .rgb else .grbw

/-- The numeric code of a channel format (R73). -/
def ChannelFormat.code : ChannelFormat → Nat
  | .rgb => 0
  | .grbw => 1

/-- The command if the reserved fields are as R81 wants them, else the refusal. -/
def unlessReserved (reservedZero : Bool) (op : Nat) (i : Instr) : Except DecodeError Instr :=
  if reservedZero then .ok i else .error (.reservedField op)

/-- The decoder, total on every word (R81 to R84). -/
def decodeWord (w : CommandWord) : Except DecodeError Instr :=
  let h := hField w
  let c := cField w
  let g := gField w
  let a := aField w
  let b := bField w
  match opField w with
  | 1 => unlessReserved (h == 0 && decide (c < 2)) 1 (.create (formatOfCode c) g a b)
  | 2 => unlessReserved (c == 0 && g == 0) 2 (.setPixel h a (sampleField w))
  | 3 => unlessReserved (c == 0 && g == 0 && a == 0 && b == 0) 3 (.clear h)
  | 4 => unlessReserved (c == 0 && g == 0 && a == 0 && b == 0) 4 (.refresh h)
  | 5 => unlessReserved (c == 0 && g == 0 && b == 0) 5 (.refreshWait h a)
  | 6 => unlessReserved (c == 0 && g == 0 && a == 0 && b == 0) 6 (.enable h)
  | 7 => unlessReserved (c == 0 && g == 0 && a == 0 && b == 0) 7 (.disable h)
  | 8 => unlessReserved (c == 0 && g == 0 && a == 0 && b == 0) 8 (.destroy h)
  | op => .error (.reservedOpcode op)

/-- `op ++ h ++ c ++ g ++ a ++ b`, the format CMD (R80). -/
def packFields (op h c g a : Nat) (b : BitVec 32) : CommandWord :=
  BitVec.ofNat 8 op ++ BitVec.ofNat 8 h ++ BitVec.ofNat 8 c ++ BitVec.ofNat 8 g ++
    BitVec.ofNat 32 a ++ b

/-- `s0 ++ s1 ++ s2 ++ s3` (R83). -/
def packSample (s : Sample) : BitVec 32 := s.s0 ++ s.s1 ++ s.s2 ++ s.s3

/-- The word of a well-formed command (R81 to R83); an operand that does not fit its field loses its
high bits. -/
def encode : Instr → CommandWord
  | .create format gpio ledCount resolutionHz =>
    packFields 0x01 0 format.code gpio ledCount (BitVec.ofNat 32 resolutionHz)
  | .setPixel h index sample => packFields 0x02 h 0 0 index (packSample sample)
  | .clear h => packFields 0x03 h 0 0 0 0
  | .refresh h => packFields 0x04 h 0 0 0 0
  | .refreshWait h timeoutMs => packFields 0x05 h 0 0 timeoutMs 0
  | .enable h => packFields 0x06 h 0 0 0 0
  | .disable h => packFields 0x07 h 0 0 0 0
  | .destroy h => packFields 0x08 h 0 0 0 0

/-- The mnemonic of the command's row in the opcode table (R81). -/
def Instr.mnemonic : Instr → String
  | .create _ _ _ _ => "CREATE"
  | .setPixel _ _ _ => "SET_PIXEL"
  | .clear _ => "CLEAR"
  | .refresh _ => "REFRESH"
  | .refreshWait _ _ => "REFRESH_WAIT"
  | .enable _ => "ENABLE"
  | .disable _ => "DISABLE"
  | .destroy _ => "DESTROY"

/-- One row of the opcode table: a word `w` selects it iff `w &&& mask = pattern` (R81). -/
structure OpcodeRow where
  mnemonic : String
  pattern : CommandWord
  mask : CommandWord
deriving DecidableEq, Repr

/-- The match and mask values of R81. -/
def opcodeRows : List OpcodeRow :=
  [⟨"CREATE", 0x010000000000000000000000#96, 0xFFFFFE000000000000000000#96⟩,
   ⟨"SET_PIXEL", 0x020000000000000000000000#96, 0xFF00FFFF0000000000000000#96⟩,
   ⟨"CLEAR", 0x030000000000000000000000#96, 0xFF00FFFFFFFFFFFFFFFFFFFF#96⟩,
   ⟨"REFRESH", 0x040000000000000000000000#96, 0xFF00FFFFFFFFFFFFFFFFFFFF#96⟩,
   ⟨"REFRESH_WAIT", 0x050000000000000000000000#96, 0xFF00FFFF00000000FFFFFFFF#96⟩,
   ⟨"ENABLE", 0x060000000000000000000000#96, 0xFF00FFFFFFFFFFFFFFFFFFFF#96⟩,
   ⟨"DISABLE", 0x070000000000000000000000#96, 0xFF00FFFFFFFFFFFFFFFFFFFF#96⟩,
   ⟨"DESTROY", 0x080000000000000000000000#96, 0xFF00FFFFFFFFFFFFFFFFFFFF#96⟩]

/-- `w` selects the row (R81). -/
def OpcodeRow.selects (r : OpcodeRow) (w : CommandWord) : Bool := (w &&& r.mask) == r.pattern

/-- A reserved field of R81 is not zero in `w` (R84), command by command. -/
def reservedFieldSet (w : CommandWord) : Bool :=
  match opField w with
  | 1 => hField w != 0 || decide (2 ≤ cField w)
  | 2 => cField w != 0 || gField w != 0
  | 5 => cField w != 0 || gField w != 0 || bField w != 0
  | _ => cField w != 0 || gField w != 0 || aField w != 0 || bField w != 0

/-- A word is illegal if its `op` is not one of 0x01 to 0x08 or a reserved field is not zero (R84). -/
def illegalWord (w : CommandWord) : Bool :=
  !decide (1 ≤ opField w ∧ opField w ≤ 8) || reservedFieldSet w

/-- The instruction whose bits are `w`, numbered as spec/opcode_table.json numbers them. A command
is one 96-bit word (R80), so the table's bit numbers are the word's. -/
def decodeTableWord (nbits w : Nat) : Option Instr :=
  (decodeWord (BitVec.ofNat 96 (w % 2 ^ nbits))).toOption

/-- The channel format as a listing spells it (R88). -/
def ChannelFormat.listing : ChannelFormat → String
  | .rgb => "RGB"
  | .grbw => "GRBW"

/-- A handle as a listing spells it (R88). -/
def handleListing (h : Nat) : String := "h" ++ toString h

/-- A sample as a listing spells it, all four values written (R88). -/
def Sample.listing (s : Sample) : String :=
  "(" ++ toString s.s0.toNat ++ ", " ++ toString s.s1.toNat ++ ", " ++ toString s.s2.toNat ++
    ", " ++ toString s.s3.toNat ++ ")"

/-- The one line per command of R88, numbers in decimal. -/
def Instr.listing : Instr → String
  | .create format gpio ledCount resolutionHz =>
    "create " ++ toString ledCount ++ ", " ++ format.listing ++ ", " ++ toString gpio ++ ", " ++
      toString resolutionHz
  | .setPixel h index sample =>
    "setpix " ++ handleListing h ++ ", " ++ toString index ++ ", " ++ sample.listing
  | .clear h => "clear " ++ handleListing h
  | .refresh h => "refresh " ++ handleListing h
  | .refreshWait h timeoutMs => "refreshw " ++ handleListing h ++ ", " ++ toString timeoutMs
  | .enable h => "enable " ++ handleListing h
  | .disable h => "disable " ++ handleListing h
  | .destroy h => "destroy " ++ handleListing h

end Sys2Proof
end

