-- ==== Sys2Proof/Config.lean ====
section
/-! DEFINITION. What one implementation of the block fixes (R4, R5), the inputs of the step relation
(R8, R9, R36), and the free value for the inputs the spec leaves open (R58, U17, U18). -/

namespace Sys2Proof

/-- The parameters of R4 and R5. `CMD_BITS` is the width of `CommandWord`; `channels`, `led_count`,
`resolution_hz` and `timeout_ms` are operands, not parameters. -/
structure Config where
  /-- `ZERO_H_NS`: high time of a ZERO-BIT. -/
  zeroHNs : Nat
  /-- `ZERO_L_NS`: low time of a ZERO-BIT. -/
  zeroLNs : Nat
  /-- `ONE_H_NS`: high time of a ONE-BIT. -/
  oneHNs : Nat
  /-- `ONE_L_NS`: low time of a ONE-BIT. -/
  oneLNs : Nat
  /-- `RESET_NS`: low time of RESET. -/
  resetNs : Nat
  /-- `REF_RESOLUTION_HZ`: the reference tick clock. No rule reads it. -/
  refResolutionHz : Nat
  /-- `QUEUE_DEPTH`. -/
  queueDepth : Nat
  /-- `DUR_MAX`: the largest tick count of one descriptor half. -/
  durMax : Nat
  /-- `N_STRIPS` (OPEN). -/
  nStrips : Nat
  /-- `MEM_SYMBOLS` (OPEN). -/
  memSymbols : Nat
  /-- `FB_POOL_BYTES` (OPEN). -/
  fbPoolBytes : Nat
  /-- `N_TASKS` (OPEN). -/
  nTasks : Nat
deriving DecidableEq, Repr

/-- The values R4 and R5 fix: the nanosecond literals of the document and `DUR_MAX`. -/
abbrev Config.Nominal (c : Config) : Prop :=
  c.zeroHNs = 300 ∧ c.zeroLNs = 900 ∧ c.oneHNs = 600 ∧ c.oneLNs = 600 ∧ c.resetNs = 80000 ∧
    c.refResolutionHz = 10000000 ∧ c.durMax = 32767

/-- The bounds R4 and R5 put on the parameters: preconditions of `State.powerOn` (U14), and part of the invariant.
`nStrips ≤ 256` is DEDUCED from the 8-bit handle of R80 and R86 (log 12). -/
abbrev Config.Bounds (c : Config) : Prop :=
  1 ≤ c.queueDepth ∧ 1 ≤ c.nStrips ∧ c.nStrips ≤ 256 ∧ 8 ≤ c.memSymbols ∧ 3 ≤ c.fbPoolBytes ∧
    1 ≤ c.nTasks

/-- The parameter values of R4, and for the OPEN ones those 95_test_vectors.md takes where it says
nothing else. DESIGN CHOICE (log 1): only `State.reset` uses them. -/
def Config.reference : Config where
  zeroHNs := 300
  zeroLNs := 900
  oneHNs := 600
  oneLNs := 600
  resetNs := 80000
  refResolutionHz := 10000000
  queueDepth := 4
  durMax := 32767
  nStrips := 2
  memSymbols := 64
  fbPoolBytes := 4096
  nTasks := 1

/-- One input of the step relation: which agent of R9 moves next, and with which word or which
alternative. A move whose agent has no such step enabled does nothing (log 3). -/
inductive Move where
  /-- Host task `task` issues the command word `word` (R8, R182). -/
  | issue (task : Nat) (word : CommandWord)
  /-- Task `task` takes the [complete] alternative of its wait (R118 phase 2). -/
  | waitComplete (task : Nat)
  /-- Task `task` takes the [timeout] alternative of its wait (R118 phase 2, U17). -/
  | waitTimeout (task : Nat)
  /-- The sequencer of slot `h` takes TX_START (R146). -/
  | txStart (h : Nat)
  /-- The encoder of slot `h` takes ENC_STEP (R98, R99). -/
  | encStep (h : Nat)
  /-- The sequencer of slot `h` takes SEQ_STEP (R147). -/
  | seqStep (h : Nat)
  /-- The sequencer of slot `h` takes TX_DONE (R149). -/
  | txDone (h : Nat)
deriving DecidableEq, Repr, Inhabited

/-- FREE VALUE (log 2): the `n`-th move the surroundings choose once the listed inputs are used up.
The spec leaves the choice open (R58, U17, U18); nothing constrains it. -/
opaque Config.freeMove : Nat → Move

end Sys2Proof
end

