-- ==== Sys2Proof/Machine/State.lean ====
section
/-! DEFINITION. The state of the block as plain data: everything 10_state.md gives it, the model's own
input and observation fields (log 1, 2, 5, 6), the reasons a step can stop, and the state after power-on reset. -/

namespace Sys2Proof.Machine

/-- An electrical level, 0 = low, 1 = high (R33, R75). -/
inductive Level where
  | low
  | high
deriving DecidableEq, Repr

/-- A pulse descriptor: the wire at `levelA` for `durationA` ticks, then at `levelB` for `durationB`
(R75). -/
structure Descriptor where
  levelA : Level
  durationA : Nat
  levelB : Level
  durationB : Nat
deriving DecidableEq, Repr

/-- One segment of a wire trace. The clock its ticks are counted in stands beside it, because strips
of different resolutions may use one pin one after the other (R33, log 11). -/
structure Segment where
  level : Level
  ticks : Nat
  resolutionHz : Nat
deriving DecidableEq, Repr

/-- A wire `W[g]` (R33). -/
structure Wire where
  /-- Append-only, oldest segment first. -/
  trace : List Segment
  /-- The present level. -/
  level : Level
deriving DecidableEq, Repr

/-- A wire that has carried nothing: empty trace, low (R33, R39). -/
def Wire.silent : Wire where
  trace := []
  level := .low

/-- The tick registers of a strip, its duration profile `P` (R25, R75). -/
structure Profile where
  t0h : Nat
  t0l : Nat
  t1h : Nat
  t1l : Nat
  treset : Nat
deriving DecidableEq, Repr

/-- The states of the chunked encoder (R28, R96). -/
inductive EncState where
  | encodingData
  | encodingReset
  | complete
deriving DecidableEq, Repr

/-- The encoder of a strip: `enc.state` and `enc.cursor` (R28). -/
structure Encoder where
  state : EncState
  /-- How many frame-buffer bytes of this transmit cycle are encoded. -/
  cursor : Nat
deriving DecidableEq, Repr

/-- A frame buffer's contents: the bytes that are not 0x00, by offset, strictly rising. A byte not
listed reads 0x00, what CREATE leaves in it (R26, log 13). -/
abbrev Memory := List Host.Cell

/-- A Live strip: every field of R22 but `exists`, which is the presence of the strip in its slot. -/
structure Strip where
  ledCount : Nat
  format : ChannelFormat
  gpio : Nat
  resolutionHz : Nat
  /-- The tick registers `t0h, t0l, t1h, t1l, treset` (R25). -/
  profile : Profile
  /-- The frame buffer `fb` (R26). -/
  fb : Memory
  /-- The output stage is started (R27). -/
  enabled : Bool
  enc : Encoder
  /-- Transmissions accepted and not yet started (R30). -/
  pending : Nat
  /-- One transmission is in flight (R30). -/
  active : Bool
  /-- Symbol memory, its head first (R32). -/
  symmem : List Descriptor
deriving DecidableEq, Repr

/-- `Waiting(h, timeout_ms)` (R34). -/
structure Waiting where
  h : Nat
  timeoutMs : Nat
deriving DecidableEq, Repr

/-- A host task as the block sees it. -/
structure Task where
  /-- `T[t].wait` (R34). -/
  wait : Option Waiting
  /-- The response words the task has received, oldest first: what R156 (ii) observes (log 6). -/
  responses : List ResponseWord
deriving DecidableEq, Repr

/-- The state of the block. -/
structure State where
  /-- The parameters of R4 and R5. Not state of the block (R36): no step changes them (log 1). -/
  config : Config
  /-- The strip slots `S[0] ..`; `none` is an Absent slot, whose fields hold no value (R22, R23). -/
  slots : List (Option Strip)
  /-- The wires that are not silent, by pin, strictly rising (R33, log 14). -/
  wires : List (Nat × Wire)
  /-- `pool_free` (R34). -/
  poolFree : Nat
  /-- The host tasks `T[0] ..` (R34). -/
  tasks : List Task
  /-- The model's own: the task whose command is being executed (log 5). -/
  issuer : Nat
  /-- The model's own: the inputs still to come, the next first (R36, log 2). -/
  schedule : List Move
  /-- The model's own: how many moves have been taken from `Config.freeMove` (log 2). -/
  draws : Nat
deriving DecidableEq, Repr

/-- Reasons for the machine to stop with a fault. The spec gives the block no fault state (R163). -/
inductive Fault where
  /-- Raised by `FbRead` and `FbWrite` at an offset outside the frame buffer, where R7 does not define
  them. Safe: the model stops; no rule of the spec ever asks for such an access. -/
  | frameBufferRange (offset : Nat)
deriving DecidableEq, Repr

/-- Executions the spec gives no meaning, which a model must refuse (R127, R182, 93_implementation_defined.md). -/
inductive Refusal where
  /-- Raised by no arm: every command of the table has its meaning. Safe. -/
  | notModelled (mnemonic : String)
  /-- Raised by every command but CREATE and DESTROY whose handle names no Live strip (R127, U2). Safe: R127 demands it. -/
  | noLiveStrip (h : Nat)
  /-- Raised by DESTROY of a slot that is not Live (R126 "double-destroy is undefined", U1). Safe: R127 demands it. -/
  | destroyOfAbsent (h : Nat)
  /-- Raised by DESTROY of a strip that a task waits on (R182, U3). Safe: R182 demands it. -/
  | destroyWhileWaiting (h : Nat)
  /-- Raised by phase 2 of a REFRESH_WAIT whose strip is no longer Live (R127, U3). Safe. -/
  | waitOnAbsentStrip (h : Nat)
  /-- Raised by a CREATE that would succeed on the pin of a Live strip (R40, U9, log 10). Safe. -/
  | pinInUse (gpio : Nat)
deriving DecidableEq, Repr

/-- A host task after power-on reset (R39, R190). -/
def Task.ready : Task where
  wait := none
  responses := []

/-- The state after power-on reset of a block with the parameters `c` (R39, R190), which lie within the bounds of R4 and
R5 (U14, log 12). -/
def State.powerOn (c : Config) (_ : c.Bounds) : State where
  config := c
  slots := List.replicate c.nStrips none
  wires := []
  poolFree := c.fbPoolBytes
  tasks := List.replicate c.nTasks .ready
  issuer := 0
  schedule := []
  draws := 0

/-- Power-on reset of the reference block (R39, R190, log 1). -/
def State.reset : State := State.powerOn Config.reference (by decide)

end Sys2Proof.Machine
end

