-- ==== Sys2Proof/Machine/Flags.lean ====
section
/-! DEFINITION. The block's status flags (R29), result codes and response words (R86, R87). It has no
arithmetic condition codes. -/

namespace Sys2Proof.Machine

/-- `occupancy(h) = pending + active` (R31). -/
def Strip.occupancy (st : Strip) : Nat := st.pending + st.active.toNat

/-- What ENC_STEP returns (R29, R98, R99). -/
inductive EncStatus where
  | moreData
  | complete
deriving DecidableEq, Repr

/-- The completion status as a function of the encoder's state after a step (R29). -/
def EncState.status : EncState → EncStatus
  | .encodingData => .moreData
  | .encodingReset => .moreData
  | .complete => .complete

/-- The result codes of R87. -/
inductive ResultCode where
  | ok
  | allocationError
  | peripheralError
  | indexOutOfRange
  | transmitError
  | timeoutError
  | validationError
  | illegalCommand
deriving DecidableEq, Repr

/-- The number of a result code (R87). -/
def ResultCode.number : ResultCode → Nat
  | .ok => 0
  | .allocationError => 1
  | .peripheralError => 2
  | .indexOutOfRange => 3
  | .transmitError => 4
  | .timeoutError => 5
  | .validationError => 6
  | .illegalCommand => 7

/-- The response word: bits 7:0 the code, bits 15:8 the handle, bits 31:16 zero (R86). -/
def responseWord (code : ResultCode) (handle : Nat) : ResponseWord :=
  (0 : BitVec 16) ++ BitVec.ofNat 8 handle ++ BitVec.ofNat 8 code.number

end Sys2Proof.Machine
end

