-- ==== Sys2Proof/Machine/Memory.lean ====
section
/-! DEFINITION. Sparse storage in one canonical form, for frame buffers (offset to byte) and wires (pin to
wire), and the frame-buffer primitives of R7 and R53. -/

namespace Sys2Proof.Machine

/-- What address `a` holds; an unlisted address holds `d`. -/
def cellRead {α : Type} (d : α) : List (Nat × α) → Nat → α
  | [], _ => d
  | c :: rest, a => if a = c.1 then c.2 else cellRead d rest a

/-- Store `v` at address `a`, keeping the canonical form: storing `d` removes the entry. -/
def cellWrite {α : Type} [DecidableEq α] (d : α) : List (Nat × α) → Nat → α → List (Nat × α)
  | [], a, v => if v = d then [] else [(a, v)]
  | c :: rest, a, v =>
    if a < c.1 then
      if v = d then c :: rest else (a, v) :: c :: rest
    else if a = c.1 then
      if v = d then rest else (a, v) :: rest
    else c :: cellWrite d rest a v

/-- The canonical form: addresses strictly rising, no entry equal to what an unlisted address holds. -/
abbrev CellsWf {α : Type} (d : α) (cells : List (Nat × α)) : Prop :=
  cells.Pairwise (fun c e => c.1 < e.1) ∧ ∀ c ∈ cells, c.2 ≠ d

/-- What an unlisted byte of a frame buffer reads as: "allocates a zeroed frame buffer" (R26, R55). -/
def Memory.blank : Byte := 0x00

/-- The canonical form of a frame buffer's contents. -/
abbrev Memory.wf (m : Memory) : Prop := CellsWf Memory.blank m

/-- The byte at offset `k`. -/
def Memory.read (m : Memory) (k : Nat) : Byte := cellRead Memory.blank m k

/-- The contents with byte `k` set to `v`. -/
def Memory.write (m : Memory) (k : Nat) (v : Byte) : Memory := cellWrite Memory.blank m k v

/-- `channels(format)` (R24, R73). -/
def channelsOf : ChannelFormat → Nat
  | .rgb => 3
  | .grbw => 4

/-- `channels` of a strip (R22). -/
def Strip.channels (st : Strip) : Nat := channelsOf st.format

/-- `len(fb)`, that is `led_count * channels` (R26, R72). -/
def Strip.fbLen (st : Strip) : Nat := st.ledCount * st.channels

/-- `FbRead` (R7): one byte, defined only inside the buffer. -/
def Strip.fbRead (st : Strip) (k : Nat) : Except Fault Byte :=
  if k < st.fbLen then .ok (Memory.read st.fb k) else .error (.frameBufferRange k)

/-- `FbWrite` (R7): one byte, defined only inside the buffer. -/
def Strip.fbWrite (st : Strip) (k : Nat) (v : Byte) : Except Fault Strip :=
  if k < st.fbLen then .ok { st with fb := Memory.write st.fb k v } else .error (.frameBufferRange k)

/-- The `n` bytes from offset `k` on, each read by `FbRead` (R53, R98). -/
def Strip.fbLoad (st : Strip) (k : Nat) : Nat → Except Fault (List Byte)
  | 0 => .ok []
  | n + 1 =>
    match st.fbRead k with
    | .error f => .error f
    | .ok b =>
      match st.fbLoad (k + 1) n with
      | .error f => .error f
      | .ok bs => .ok (b :: bs)

/-- The bytes `vs` stored from offset `k` on, each by `FbWrite` (R53, R112). -/
def Strip.fbStore (st : Strip) (k : Nat) : List Byte → Except Fault Strip
  | [] => .ok st
  | v :: vs =>
    match st.fbWrite k v with
    | .error f => .error f
    | .ok st' => st'.fbStore (k + 1) vs

/-- The whole frame buffer as a list of bytes, offset 0 first (R72). -/
def Strip.fbBytes (st : Strip) : List Byte := (List.range st.fbLen).map (Memory.read st.fb)

end Sys2Proof.Machine
end

