-- ==== Sys2Proof/Machine/Encoder.lean ====
section
/-! DEFINITION. The encoder family (40_encoder.md): tick counts, the three canonical descriptors, the pure
functions, and the steps of the chunked encoder on one strip. -/

namespace Sys2Proof.Machine

/-- `ticks(duration_ns, resolution_hz)`, rounding down (R74; the rounding is D7, log 23). -/
def ticks (durationNs resolutionHz : Nat) : Nat := durationNs * resolutionHz / 1000000000

/-- The tick registers of a strip with the clock `hz`, from the nanosecond constants (R25). -/
def Profile.ofResolution (c : Config) (hz : Nat) : Profile where
  t0h := ticks c.zeroHNs hz
  t0l := ticks c.zeroLNs hz
  t1h := ticks c.oneHNs hz
  t1l := ticks c.oneLNs hz
  treset := ticks c.resetNs hz

/-- `ra`, the first half of RESET (R78, R110). -/
def Profile.resetHalfA (p : Profile) : Nat := p.treset / 2

/-- `rb`, the second half of RESET (R78, R110). -/
def Profile.resetHalfB (p : Profile) : Nat := p.treset - p.treset / 2

/-- ZERO-BIT (R76). -/
def zeroBit (p : Profile) : Descriptor := ⟨.high, p.t0h, .low, p.t0l⟩

/-- ONE-BIT (R77). -/
def oneBit (p : Profile) : Descriptor := ⟨.high, p.t1h, .low, p.t1l⟩

/-- RESET (R78). -/
def resetPulse (p : Profile) : Descriptor := ⟨.low, p.resetHalfA, .low, p.resetHalfB⟩

/-- A tick count one descriptor half can hold: not 0, not above `DUR_MAX` (R110). -/
abbrev TickFits (durMax n : Nat) : Prop := 1 ≤ n ∧ n ≤ durMax

/-- The profile can be realised (R110 step 3; D8). -/
abbrev Profile.Realisable (durMax : Nat) (p : Profile) : Prop :=
  TickFits durMax p.t0h ∧ TickFits durMax p.t0l ∧ TickFits durMax p.t1h ∧ TickFits durMax p.t1l ∧
    TickFits durMax p.resetHalfA ∧ TickFits durMax p.resetHalfB

/-- A level as a bit, high 1 (R75). -/
def Level.bit : Level → BitVec 1
  | .low => 0
  | .high => 1

/-- The descriptor as a word of symbol memory: `level_b ++ duration_b ++ level_a ++ duration_a` (R79). -/
def Descriptor.word (d : Descriptor) : BitVec 32 :=
  d.levelB.bit ++ BitVec.ofNat 15 d.durationB ++ d.levelA.bit ++ BitVec.ofNat 15 d.durationA

/-- `encode_bit(P, bit)` (R90). -/
def encodeBit (p : Profile) (bit : Bool) : Descriptor := if bit then oneBit p else zeroBit p

/-- `encode_byte(P, value)`: element `j` is for bit `7 - j`, the most significant bit first (R91). -/
def encodeByte (p : Profile) (value : Byte) : List Descriptor :=
  (List.range 8).map fun j => encodeBit p (value.getLsbD (7 - j))

/-- `encode_byte` of each byte in order (R93). -/
def encodeBytes (p : Profile) (bytes : List Byte) : List Descriptor := bytes.flatMap (encodeByte p)

/-- `encode_frame(P, buffer)`: the bytes, then exactly one RESET (R93). -/
def encodeFrame (p : Profile) (buffer : List Byte) : List Descriptor :=
  encodeBytes p buffer ++ [resetPulse p]

/-- `SymPush` of several descriptors at the tail, in order (R7, R32). -/
def Strip.symPush (st : Strip) (ds : List Descriptor) : Strip := { st with symmem := st.symmem ++ ds }

/-- `free`, the remaining symbol memory (R98). -/
def Strip.symFree (memSymbols : Nat) (st : Strip) : Nat := memSymbols - st.symmem.length

/-- `n`, how many whole bytes this ENC_STEP encodes: as many as fit (R98). -/
def Strip.chunk (memSymbols : Nat) (st : Strip) : Nat :=
  min (st.fbLen - st.enc.cursor) (st.symFree memSymbols / 8)

/-- ENC_RESET (R97). -/
def Strip.encReset (st : Strip) : Strip := { st with enc := ⟨.encodingData, 0⟩ }

/-- When ENC_STEP is enabled (R98, R99, R100). -/
def Strip.encEnabled (memSymbols : Nat) (st : Strip) : Bool :=
  st.active &&
    match st.enc.state with
    | .encodingData => decide (8 ≤ st.symFree memSymbols)
    | .encodingReset => decide (1 ≤ st.symFree memSymbols)
    | .complete => false

/-- The encoder's state once `cursor` bytes of `len` are encoded (R96, R98). -/
def dataStateAt (cursor len : Nat) : EncState := if cursor = len then .encodingReset else .encodingData

/-- ENC_STEP in EncodingData, its effect (R98). -/
def Strip.encStepData (memSymbols : Nat) (st : Strip) : Except Fault Strip :=
  match st.fbLoad st.enc.cursor (st.chunk memSymbols) with
  | .error f => .error f
  | .ok bytes =>
    let cursor := st.enc.cursor + st.chunk memSymbols
    .ok { st.symPush (encodeBytes st.profile bytes) with
      enc := ⟨dataStateAt cursor st.fbLen, cursor⟩ }

/-- ENC_STEP in EncodingReset, its effect (R99). -/
def Strip.encStepReset (st : Strip) : Strip :=
  { st.symPush [resetPulse st.profile] with enc := { st.enc with state := .complete } }

/-- The effect of an enabled ENC_STEP, with the status it returns (R98, R99). In Complete it is not
enabled and has none (R100). -/
def Strip.encStep (memSymbols : Nat) (st : Strip) : Except Fault (Strip × EncStatus) :=
  match st.enc.state with
  | .encodingData =>
    match st.encStepData memSymbols with
    | .error f => .error f
    | .ok st' => .ok (st', st'.enc.state.status)
  | .encodingReset => .ok (st.encStepReset, st.encStepReset.enc.state.status)
  | .complete => .ok (st, .complete)

end Sys2Proof.Machine
end

