-- ==== Sys2Proof/Machine/Operands.lean ====
section
/-! DEFINITION. Operand forms: the handle that names a strip (R22, R127), the pixel offset (R52), the
sample's bytes (R51, R83, R112). -/

namespace Sys2Proof.Machine

/-- The Live strip handle `h` names, if it names one: `none` for an Absent slot and for
`h >= N_STRIPS` (R22, R84). -/
def State.stripAt (s : State) (h : Nat) : Option Strip := s.slots[h]?.join

/-- The state with `st` in slot `h`. -/
def State.setStrip (s : State) (h : Nat) (st : Strip) : State :=
  { s with slots := s.slots.set h (some st) }

/-- The state with slot `h` Absent. -/
def State.clearSlot (s : State) (h : Nat) : State := { s with slots := s.slots.set h none }

/-- The Live strips, by rising handle. -/
def State.liveStrips (s : State) : List Strip := s.slots.filterMap id

/-- A command on strip `h`: `k` on the strip, or the refusal `r` where `h` names no Live strip
(R127). -/
def onStrip (r : Refusal) (h : Nat) (s : State) (k : Strip → Host.Outcome State Fault Refusal) :
    Host.Outcome State Fault Refusal :=
  match s.stripAt h with
  | none => .refused r
  | some st => k st

/-- `offset(index, channels)` (R52). -/
def offset (index channels : Nat) : Nat := index * channels

/-- The bytes of a sample a strip stores, the first on the wire first: `s3` only with 4 channels
(R83, R112). -/
def sampleBytes (format : ChannelFormat) (s : Sample) : List Byte :=
  match format with
  | .rgb => [s.s0, s.s1, s.s2]
  | .grbw => [s.s0, s.s1, s.s2, s.s3]

end Sys2Proof.Machine
end

