-- ==== Sys2Proof/Machine/Ops.lean ====
section
/-! DEFINITION. Shared operations: answering a command (the block's whole error delivery, R167), waits, wires,
and the peripheral boundary calls of R140 to R145. -/

namespace Sys2Proof.Machine

/-- Append a response word to what task `t` has received (R86, R156). -/
def State.respond (s : State) (t : Nat) (w : ResponseWord) : State :=
  { s with tasks := s.tasks.modify t fun task => { task with responses := task.responses ++ [w] } }

/-- Answer the command being executed with a result code, handle bits zero. This is how every error
is delivered, and nothing else is saved or changed (R86, R167). -/
def State.answer (s : State) (code : ResultCode) : State := s.respond s.issuer (responseWord code 0)

/-- Answer a successful CREATE with the new handle (R86). -/
def State.answerHandle (s : State) (h : Nat) : State := s.respond s.issuer (responseWord .ok h)

/-- `T[t].wait <- w` (R34). -/
def State.setWait (s : State) (t : Nat) (w : Option Waiting) : State :=
  { s with tasks := s.tasks.modify t fun task => { task with wait := w } }

/-- What task `t` is waiting for, if it waits (R34). -/
def State.waitOf (s : State) (t : Nat) : Option Waiting := s.tasks[t]?.bind Task.wait

/-- Some task is inside the wait phase of a REFRESH_WAIT on strip `h` (R34, U3). -/
def State.waitedOn (s : State) (h : Nat) : Bool :=
  s.tasks.any fun task => task.wait.any fun w => w.h == h

/-- The wire `W[g]` (R33). -/
def State.wire (s : State) (g : Nat) : Wire := cellRead Wire.silent s.wires g

/-- A wire after one more segment (R33). -/
def Wire.emit (w : Wire) (seg : Segment) : Wire where
  trace := w.trace ++ [seg]
  level := seg.level

/-- `WireEmit(h, level, ticks)` for a strip on pin `g` (R7, R33). -/
def State.wireEmit (s : State) (g : Nat) (seg : Segment) : State :=
  { s with wires := cellWrite Wire.silent s.wires g ((s.wire g).emit seg) }

/-- The least Absent slot (R110 step 3). -/
def State.freeSlot (s : State) : Option Nat := s.slots.findIdx? Option.isNone

/-- A Live strip has the pin `g` (R40, U9). -/
def State.pinInUse (s : State) (g : Nat) : Bool := s.liveStrips.any fun st => st.gpio == g

/-- `acquire_channel(gpio, resolution_hz, QUEUE_DEPTH)`: the slot and its tick registers, or nothing
where it is rejected (R110 step 3, R141; what it rejects is D5 and D8). The pin is not checked (R24). -/
def State.acquireChannel (s : State) (hz : Nat) : Option (Nat × Profile) :=
  match s.freeSlot with
  | none => none
  | some h =>
    if (Profile.ofResolution s.config hz).Realisable s.config.durMax then
      some (h, Profile.ofResolution s.config hz)
    else none

/-- `transmit(channel, ..., loop_count=0)`: one more transmission in the queue, or nothing where it is
rejected (R116, R143; the rejection of a stopped stage is D14). -/
def Strip.transmit (queueDepth : Nat) (st : Strip) : Option Strip :=
  if st.enabled = false then none
  else if st.occupancy = queueDepth then none
  else some { st with pending := st.pending + 1 }

/-- `enable(channel)` (R122, R142). -/
def Strip.enableStage (st : Strip) : Option Strip :=
  if st.enabled then none else some { st with enabled := true }

/-- `disable(channel)` (R124, R142). -/
def Strip.disableStage (st : Strip) : Option Strip :=
  if st.enabled = false then none
  else if 0 < st.occupancy then none
  else some { st with enabled := false }

/-- Release encoder, channel (`release_channel`) and buffer in one step (R126, R145). -/
def State.releaseStrip (s : State) (h : Nat) (st : Strip) : State :=
  { s.clearSlot h with poolFree := s.poolFree + st.fbLen }

end Sys2Proof.Machine
end

