-- ==== Sys2Proof/Machine/StripCommands.lean ====
section
/-! DEFINITION. CREATE, DESTROY and the frame-buffer writes (41_strip_ops.md sections 1, 2 and 5). -/

namespace Sys2Proof.Machine

/-- A strip as a successful CREATE leaves it (R39, R110 step 4). -/
def Strip.created (format : ChannelFormat) (gpio ledCount hz : Nat) (p : Profile) : Strip where
  ledCount := ledCount
  format := format
  gpio := gpio
  resolutionHz := hz
  profile := p
  fb := []
  enabled := false
  enc := ⟨.encodingData, 0⟩
  pending := 0
  active := false
  symmem := []

/-- `need`, the bytes of a frame buffer (R110 step 2). -/
def frameBytes (format : ChannelFormat) (ledCount : Nat) : Nat := ledCount * channelsOf format

/-- R110 step 4: the strip is put into its slot, its bytes leave the pool, the handle is the answer. -/
def State.install (s : State) (h : Nat) (st : Strip) : State :=
  ({ s with poolFree := s.poolFree - st.fbLen }.setStrip h st).answerHandle h

/-- CREATE (R110, R111), its checks in the order of R110. A CREATE that would succeed on the pin of a
Live strip is refused (R40, U9, log 10). -/
def execCreate (format : ChannelFormat) (gpio ledCount resolutionHz : Nat) (s : State) :
    Host.Outcome State Fault Refusal :=
  if ledCount = 0 then .next (s.answer .validationError)
  else if s.poolFree < frameBytes format ledCount then .next (s.answer .allocationError)
  else
    match s.acquireChannel resolutionHz with
    | none => .next (s.answer .peripheralError)
    | some (h, p) =>
      if s.pinInUse gpio then .refused (.pinInUse gpio)
      else .next (s.install h (Strip.created format gpio ledCount resolutionHz p))

/-- SET_PIXEL (R112). -/
def execSetPixel (h index : Nat) (sample : Sample) (s : State) : Host.Outcome State Fault Refusal :=
  onStrip (.noLiveStrip h) h s fun st =>
    if st.ledCount ≤ index then .next (s.answer .indexOutOfRange)
    else
      match st.fbStore (offset index st.channels) (sampleBytes st.format sample) with
      | .error f => .fault f
      | .ok st' => .next ((s.setStrip h st').answer .ok)

/-- CLEAR (R114): every byte 0x00, which is the buffer with nothing listed. -/
def execClear (h : Nat) (s : State) : Host.Outcome State Fault Refusal :=
  onStrip (.noLiveStrip h) h s fun st => .next ((s.setStrip h { st with fb := [] }).answer .ok)

/-- DESTROY (R126); of a strip that a task waits on it is refused, busy or not (R182, U3). -/
def execDestroy (h : Nat) (s : State) : Host.Outcome State Fault Refusal :=
  onStrip (.destroyOfAbsent h) h s fun st =>
    if s.waitedOn h then .refused (.destroyWhileWaiting h)
    else if 0 < st.occupancy then .next (s.answer .peripheralError)
    else .next ((s.releaseStrip h st).answer .ok)

end Sys2Proof.Machine
end

