-- ==== Sys2Proof/Machine/Transmission.lean ====
section
/-! DEFINITION. REFRESH, REFRESH_WAIT, ENABLE and DISABLE (41_strip_ops.md sections 3 and 4). -/

namespace Sys2Proof.Machine

/-- REFRESH (R116). -/
def execRefresh (h : Nat) (s : State) : Host.Outcome State Fault Refusal :=
  onStrip (.noLiveStrip h) h s fun st =>
    match st.transmit s.config.queueDepth with
    | none => .next (s.answer .transmitError)
    | some st' => .next ((s.setStrip h st').answer .ok)

/-- REFRESH_WAIT, phase 1 (R118): the answer comes in phase 2 unless the transmission is rejected. -/
def execRefreshWait (h timeoutMs : Nat) (s : State) : Host.Outcome State Fault Refusal :=
  onStrip (.noLiveStrip h) h s fun st =>
    match st.transmit s.config.queueDepth with
    | none => .next (s.answer .transmitError)
    | some st' => .next ((s.setStrip h st').setWait s.issuer (some ⟨h, timeoutMs⟩))

/-- ENABLE (R122). -/
def execEnable (h : Nat) (s : State) : Host.Outcome State Fault Refusal :=
  onStrip (.noLiveStrip h) h s fun st =>
    match st.enableStage with
    | none => .next (s.answer .peripheralError)
    | some st' => .next ((s.setStrip h st').answer .ok)

/-- DISABLE (R124). -/
def execDisable (h : Nat) (s : State) : Host.Outcome State Fault Refusal :=
  onStrip (.noLiveStrip h) h s fun st =>
    match st.disableStage with
    | none => .next (s.answer .peripheralError)
    | some st' => .next ((s.setStrip h st').answer .ok)

end Sys2Proof.Machine
end

