-- ==== Sys2Proof/Machine/Dispatch.lean ====
section
/-! DEFINITION. The meaning of every command, one arm per constructor. -/

namespace Sys2Proof.Machine

def exec (i : Instr) (s : State) : Host.Outcome State Fault Refusal :=
  match i with
  | .create format gpio ledCount resolutionHz => Sys2Proof.Machine.execCreate format gpio ledCount resolutionHz s
  | .setPixel h index sample => Sys2Proof.Machine.execSetPixel h index sample s
  | .clear h => Sys2Proof.Machine.execClear h s
  | .refresh h => Sys2Proof.Machine.execRefresh h s
  | .refreshWait h timeoutMs => Sys2Proof.Machine.execRefreshWait h timeoutMs s
  | .enable h => Sys2Proof.Machine.execEnable h s
  | .disable h => Sys2Proof.Machine.execDisable h s
  | .destroy h => Sys2Proof.Machine.execDestroy h s

end Sys2Proof.Machine
end

