-- ==== Sys2Proof/Machine/Peripheral.lean ====
section
/-! DEFINITION. The internal steps of a slot's agents: TX_START, ENC_STEP, SEQ_STEP, TX_DONE (42_peripheral.md,
40_encoder.md). A step that is not enabled does not occur: the state stays (R161, log 3). -/

namespace Sys2Proof.Machine

/-- When TX_START is enabled (R146). -/
def Strip.txStartEnabled (st : Strip) : Bool := st.enabled && !st.active && decide (0 < st.pending)

/-- TX_START, its effect: the oldest queued transmission is in flight, the encoder reset (R146). -/
def Strip.txStart (st : Strip) : Strip :=
  { st with pending := st.pending - 1, active := true }.encReset

/-- When TX_DONE is enabled (R149). -/
def Strip.txDoneEnabled (st : Strip) : Bool :=
  st.active && decide (st.enc.state = .complete) && st.symmem.isEmpty

/-- TX_DONE, its effect (R149). -/
def Strip.txDone (st : Strip) : Strip := { st with active := false }

/-- `SymPop`, where SEQ_STEP is enabled: the head of symbol memory and the strip without it
(R7, R147). -/
def Strip.symPop (st : Strip) : Option (Descriptor × Strip) :=
  match st.active, st.symmem with
  | true, d :: rest => some (d, { st with symmem := rest })
  | _, _ => none

/-- The two segments of a descriptor (R148), with the clock their ticks are counted in (R33). -/
def Descriptor.segments (hz : Nat) (d : Descriptor) : List Segment :=
  [⟨d.levelA, d.durationA, hz⟩, ⟨d.levelB, d.durationB, hz⟩]

/-- `segments` of a list of descriptors (R148). -/
def segmentsOf (hz : Nat) (ds : List Descriptor) : List Segment := ds.flatMap (Descriptor.segments hz)

/-- Several `WireEmit`s on pin `g`, in order (R7, R147). -/
def State.wireEmitAll (s : State) (g : Nat) (segs : List Segment) : State :=
  segs.foldl (fun s seg => s.wireEmit g seg) s

/-- TX_START of slot `h` (R146). -/
def stepTxStart (h : Nat) (s : State) : Host.Outcome State Fault Refusal :=
  match s.stripAt h with
  | none => .next s
  | some st => if st.txStartEnabled then .next (s.setStrip h st.txStart) else .next s

/-- ENC_STEP of slot `h` (R98, R99, R100). -/
def stepEnc (h : Nat) (s : State) : Host.Outcome State Fault Refusal :=
  match s.stripAt h with
  | none => .next s
  | some st =>
    if st.encEnabled s.config.memSymbols then
      match st.encStep s.config.memSymbols with
      | .error f => .fault f
      | .ok (st', _) => .next (s.setStrip h st')
    else .next s

/-- SEQ_STEP of slot `h` (R147). -/
def stepSeq (h : Nat) (s : State) : Host.Outcome State Fault Refusal :=
  match s.stripAt h with
  | none => .next s
  | some st =>
    match st.symPop with
    | none => .next s
    | some (d, st') => .next ((s.setStrip h st').wireEmitAll st.gpio (d.segments st.resolutionHz))

/-- TX_DONE of slot `h` (R149). -/
def stepTxDone (h : Nat) (s : State) : Host.Outcome State Fault Refusal :=
  match s.stripAt h with
  | none => .next s
  | some st => if st.txDoneEnabled then .next (s.setStrip h st.txDone) else .next s

end Sys2Proof.Machine
end

