-- ==== Sys2Proof/Machine/Moves.lean ====
section
/-! DEFINITION. One move of the surroundings: a task issues a command word, a wait ends (R118 phase 2), or an
internal step is taken. -/

namespace Sys2Proof.Machine

/-- Task `t` issues the word `w`. A task that is not there or that waits issues nothing (R9, R118); an
illegal word is answered IllegalCommand and changes nothing (R84). -/
def issueWord (t : Nat) (w : CommandWord) (s : State) : Host.Outcome State Fault Refusal :=
  match s.tasks[t]? with
  | none => .next s
  | some task =>
    match task.wait with
    | some _ => .next s
    | none =>
      match decodeWord w with
      | .error _ => .next ({ s with issuer := t }.answer .illegalCommand)
      | .ok i => exec i { s with issuer := t }

/-- End the wait of task `t` with the answer `code` (R118 phase 2). -/
def State.endWait (s : State) (t : Nat) (code : ResultCode) : State :=
  (s.setWait t none).respond t (responseWord code 0)

/-- The [complete] alternative of `wait_completion`: enabled when the occupancy is 0 (R118, R144). -/
def stepWaitComplete (t : Nat) (s : State) : Host.Outcome State Fault Refusal :=
  match s.waitOf t with
  | none => .next s
  | some w =>
    match s.stripAt w.h with
    | none => .refused (.waitOnAbsentStrip w.h)
    | some st => if st.occupancy = 0 then .next (s.endWait t .ok) else .next s

/-- The [timeout] alternative: enabled when the occupancy is not 0; no time is kept (R118, U17, log 4). -/
def stepWaitTimeout (t : Nat) (s : State) : Host.Outcome State Fault Refusal :=
  match s.waitOf t with
  | none => .next s
  | some w =>
    match s.stripAt w.h with
    | none => .refused (.waitOnAbsentStrip w.h)
    | some st => if 0 < st.occupancy then .next (s.endWait t .timeoutError) else .next s

/-- One move (R8, R9). -/
def runMove (m : Move) (s : State) : Host.Outcome State Fault Refusal :=
  match m with
  | .issue t w => issueWord t w s
  | .waitComplete t => stepWaitComplete t s
  | .waitTimeout t => stepWaitTimeout t s
  | .txStart h => stepTxStart h s
  | .encStep h => stepEnc h s
  | .seqStep h => stepSeq h s
  | .txDone h => stepTxDone h s

/-- The next input: the head of the listed ones, or a free value once they are used up (R36, R58,
log 2). -/
def State.nextMove (s : State) : Move :=
  match s.schedule with
  | m :: _ => m
  | [] => Config.freeMove s.draws

/-- The state once its next input is taken. -/
def State.takeMove (s : State) : State :=
  match s.schedule with
  | _ :: rest => { s with schedule := rest }
  | [] => { s with draws := s.draws + 1 }

/-- Task 0 there and not waiting, so that it may issue a word. -/
def readyFirstTask : List Task → List Task
  | [] => [.ready]
  | task :: rest => { task with wait := none } :: rest

end Sys2Proof.Machine
end

