-- ==== Sys2Proof/Machine/Step.lean ====
section
/-! DEFINITION. One step of the machine, and how a command word is handed to it. -/

namespace Sys2Proof.Machine

/-- One step: the next input is taken and its move made (R8, R9, R58). -/
def step (s : State) : Host.Outcome State Fault Refusal := runMove s.nextMove s.takeMove

/-- `s` with the word `w` the next thing that happens: task 0, not waiting, issues it at the next step
(log 25). -/
def State.withFetchWord (s : State) (nbits w : Nat) : State :=
  { s with
    tasks := readyFirstTask s.tasks
    schedule := .issue 0 (BitVec.ofNat 96 (w % 2 ^ nbits)) :: s.schedule }

end Sys2Proof.Machine
end

