-- ==== Sys2Proof/Machine/Observe.lean ====
section
/-! DEFINITION. What the world outside can see of an execution (R156), what a transmission still owes the
wire (R57, R150), which steps are enabled (R58), and when a run is over (R157). -/

namespace Sys2Proof.Machine

/-- One more segment in front of a waveform: merged with the first if the level (and the clock, log 11)
is the same (R148). -/
def joinSegment (seg : Segment) : List Segment → List Segment
  | [] => [seg]
  | next :: rest =>
    if seg.level = next.level ∧ seg.resolutionHz = next.resolutionHz then
      ⟨seg.level, seg.ticks + next.ticks, seg.resolutionHz⟩ :: rest
    else seg :: next :: rest

/-- `norm(trace)`: every maximal run of segments of one level is one segment (R148). -/
def normTrace (trace : List Segment) : List Segment := trace.foldr joinSegment []

/-- The waveform of pin `g` (R156 (i)). -/
def State.waveform (s : State) (g : Nat) : List Segment := normTrace (s.wire g).trace

/-- The response words task `t` has received (R156 (ii)). -/
def State.responsesOf (s : State) (t : Nat) : List ResponseWord :=
  match s.tasks[t]? with
  | none => []
  | some task => task.responses

/-- The trace tick by tick, each tick with its level and clock: what merging equal neighbours keeps (R148). -/
def ticksOf (trace : List Segment) : List (Level × Nat) :=
  trace.flatMap fun seg => List.replicate seg.ticks (seg.level, seg.resolutionHz)

/-- The length of a trace in ticks (R151). -/
def totalTicks (trace : List Segment) : Nat := (trace.map Segment.ticks).sum

/-- The descriptors the encoder has still to push for the transmission in flight: the bytes from the
cursor on and RESET, RESET alone, or nothing (R96 to R100). -/
def Strip.toEncode (st : Strip) : List Descriptor :=
  match st.enc.state with
  | .encodingData => encodeFrame st.profile (st.fbBytes.drop st.enc.cursor)
  | .encodingReset => [resetPulse st.profile]
  | .complete => []

/-- What a transmission in flight still owes the wire: symbol memory, then what is still to be encoded. -/
def Strip.owed (st : Strip) : List Descriptor := st.symmem ++ st.toEncode

/-- The agent of the move has that step enabled (R58): a task that may issue a word (R34, R182), an alternative
of a wait (R118), an internal step of a slot (R98 to R100, R146, R147, R149). -/
def State.enabled (m : Move) (s : State) : Bool :=
  match m with
  | .issue t _ => decide (t < s.tasks.length) && (s.waitOf t).isNone
  | .waitComplete t => (s.waitOf t).any fun w => (s.stripAt w.h).any fun st => st.occupancy == 0
  | .waitTimeout t => (s.waitOf t).any fun w => (s.stripAt w.h).any fun st => decide (0 < st.occupancy)
  | .txStart h => (s.stripAt h).any Strip.txStartEnabled
  | .encStep h => (s.stripAt h).any fun st => st.encEnabled s.config.memSymbols
  | .seqStep h => (s.stripAt h).any fun st => st.active && !st.symmem.isEmpty
  | .txDone h => (s.stripAt h).any Strip.txDoneEnabled

/-- The move is a task's issue of a command word. -/
def moveIsIssue : Move → Bool
  | .issue _ _ => true
  | .waitComplete _ => false
  | .waitTimeout _ => false
  | .txStart _ => false
  | .encStep _ => false
  | .seqStep _ => false
  | .txDone _ => false

/-- A quiescent state, the end of a run (R157): no task waits, no listed command is left to issue,
every Live strip has `pending = 0` and `active = 0`. -/
abbrev State.Quiescent (s : State) : Prop :=
  (∀ task ∈ s.tasks, task.wait = none) ∧ (∀ m ∈ s.schedule, moveIsIssue m = false) ∧
    ∀ st ∈ s.liveStrips, st.pending = 0 ∧ st.active = false

end Sys2Proof.Machine
end

