-- ==== Sys2Proof/Safety.lean ====
section
/-! DEFINITION. What a good state is: the invariants of R35, with what they rest on (R4, R5, R22, R25, R33,
R40, R152, and the canonical form of sparse storage); and the vocabulary of claims: answers, frames, executions and
their weak fairness (R58). -/

namespace Sys2Proof.Machine

/-- A descriptor of one bit of the profile (R35 (vi)). -/
abbrev IsBit (p : Profile) (d : Descriptor) : Prop := d = zeroBit p ∨ d = oneBit p

/-- R35 (vi): bits only, and once the encoder is Complete at most one RESET, the last. -/
abbrev Strip.SymmemOk (st : Strip) : Prop :=
  match st.enc.state with
  | .complete => st.symmem = [] ∨
      (st.symmem.getLast? = some (resetPulse st.profile) ∧ ∀ d ∈ st.symmem.dropLast, IsBit st.profile d)
  | _ => ∀ d ∈ st.symmem, IsBit st.profile d

/-- R35 (ii). -/
abbrev Strip.CursorOk (st : Strip) : Prop :=
  match st.enc.state with
  | .encodingData => st.enc.cursor < st.fbLen
  | _ => st.enc.cursor = st.fbLen

/-- The invariants of one Live strip of a block with the parameters `c`. -/
structure Strip.Ok (c : Config) (st : Strip) : Prop where
  /-- R35 (i), R22. -/
  ledCount_pos : 1 ≤ st.ledCount
  ledCount_fits : Fits32 st.ledCount
  gpio_fits : Fits8 st.gpio
  resolution_fits : Fits32 st.resolutionHz
  /-- R25. -/
  profile_eq : st.profile = Profile.ofResolution c st.resolutionHz
  /-- R22: every duration is in `1 .. DUR_MAX`. -/
  profile_fits : st.profile.Realisable c.durMax
  fb_wf : Memory.wf st.fb
  /-- Nothing is stored outside the buffer (R35 (i)). -/
  fb_inside : ∀ cell ∈ st.fb, cell.1 < st.fbLen
  /-- R35 (ii). -/
  cursor_ok : st.CursorOk
  /-- R35 (iii). -/
  occupancy_le : st.occupancy ≤ c.queueDepth
  /-- R35 (iv). -/
  symmem_le : st.symmem.length ≤ c.memSymbols
  symmem_idle : st.active = false → st.symmem = []
  /-- R35 (v). -/
  enabled_of_busy : 0 < st.occupancy → st.enabled = true
  /-- R35 (vi). -/
  symmem_ok : st.SymmemOk

/-- The invariants of one wire that is not silent: a pin of 8 bits (R33), segments of at least one tick
(R33, R147), the level that of the last segment (R33), low between steps (R152). -/
structure WireOk (g : Nat) (w : Wire) : Prop where
  pin_fits : Fits8 g
  ticks_pos : ∀ seg ∈ w.trace, 1 ≤ seg.ticks
  level_eq : (w.trace.getLast?.map Segment.level).getD .low = w.level
  level_low : w.level = .low

/-- The invariant of the machine. -/
structure State.Inv (s : State) : Prop where
  /-- R4, R5, U14 (and log 12). -/
  bounds : s.config.Bounds
  slots_length : s.slots.length = s.config.nStrips
  tasks_length : s.tasks.length = s.config.nTasks
  strips_ok : ∀ st ∈ s.liveStrips, st.Ok s.config
  /-- R35 (vii). -/
  pool : s.poolFree + (s.liveStrips.map Strip.fbLen).sum = s.config.fbPoolBytes
  /-- No two Live strips on one pin (R40, U9). -/
  pins_distinct : (s.liveStrips.map Strip.gpio).Nodup
  wires_wf : CellsWf Wire.silent s.wires
  wires_ok : ∀ e ∈ s.wires, WireOk e.1 e.2
  /-- A task waits only on a Live strip (R127, U3). -/
  waits_live : ∀ task ∈ s.tasks, ∀ w ∈ task.wait, (s.stripAt w.h).isSome = true

/-! ### The vocabulary of claims -/

/-- `t` is `s` after the executing task received the response word `w`, as far as tasks go: no other
task changes and no wait begins or ends (R86, R167). -/
structure Answers (w : ResponseWord) (s t : State) : Prop where
  responses : t.responsesOf s.issuer = s.responsesOf s.issuer ++ [w]
  other_tasks : ∀ k, k ≠ s.issuer → t.tasks[k]? = s.tasks[k]?
  waits : ∀ k, t.waitOf k = s.waitOf k

/-- The command `i` completes in `s` with the error `code`, which is all that happens (R167). -/
def FailsWith (code : ResultCode) (i : Instr) (s : State) : Prop :=
  ∃ t, exec i s = .next t ∧ t = { s with tasks := t.tasks } ∧ Answers (responseWord code 0) s t

/-- Every slot but `h` is as it was (R40). -/
structure OtherSlotsSame (h : Nat) (s t : State) : Prop where
  length : t.slots.length = s.slots.length
  same : ∀ k, k ≠ h → t.stripAt k = s.stripAt k

/-- Several commands one after the other by the same task, stopping at a fault or a refusal. -/
def execAll : List Instr → State → Host.Outcome State Fault Refusal
  | [], s => .next s
  | i :: rest, s =>
    match exec i s with
    | .next t => execAll rest t
    | .fault f => .fault f
    | .refused r => .refused r

/-- The handle a command names; CREATE names none (R81). -/
def handleOf : Instr → Option Nat
  | .create _ _ _ _ => none
  | .setPixel h _ _ => some h
  | .clear h => some h
  | .refresh h => some h
  | .refreshWait h _ => some h
  | .enable h => some h
  | .disable h => some h
  | .destroy h => some h

/-- The move is an internal step of slot `h` (R8). -/
def internalOf (h : Nat) (m : Move) : Prop :=
  m = .txStart h ∨ m = .encStep h ∨ m = .seqStep h ∨ m = .txDone h

/-- `t` is `s` but for the inputs still to come, which are the model's own (log 2). -/
abbrev SameBlock (s t : State) : Prop := t = { s with schedule := t.schedule, draws := t.draws }

/-- An execution of the block without end (R58): at each time `n` the move `moves n` is made, and it leads from
`states n` to `states (n + 1)`. Where the moves come from is left open: the inputs listed in a state and the
free ones are an instance (`isExecution_of_steps`). A time at which nothing happens is a move that is not
enabled (log 3). -/
def IsExecution (states : Nat → State) (moves : Nat → Move) : Prop :=
  ∀ n, ∃ s, SameBlock (states n) s ∧ runMove (moves n) s = .next (states (n + 1))

/-- Weak fairness of the internal steps, the one liveness assumption (R58, D35): an ENC_STEP, SEQ_STEP, TX_START or
TX_DONE that stays enabled is eventually taken. Nothing is asked of host tasks or of waits. -/
def WeaklyFair (states : Nat → State) (moves : Nat → Move) : Prop :=
  ∀ (h : Nat) (m : Move), internalOf h m →
    ∀ n, (∀ k, n ≤ k → (states k).enabled m = true) → ∃ k, n ≤ k ∧ moves k = m

/-- How many TX_DONE of slot `h` are taken from time `n` on and before time `k`. -/
def completions (states : Nat → State) (moves : Nat → Move) (h n k : Nat) : Nat :=
  (List.range' n (k - n)).countP fun j => decide (moves j = .txDone h) && (states j).enabled (.txDone h)

/-- The steps of the machine from `s` to `t` while the transmission of slot `h` is in flight and its
frame buffer holds `fb` all along: other agents may do anything else (R57). -/
inductive Transmitting (h : Nat) (fb : Memory) : State → State → Prop
  | start {s : State} {st : Strip} (hs : s.stripAt h = some st) (ha : st.active = true) (hf : st.fb = fb) :
      Transmitting h fb s s
  | step {s t u : State} {st : Strip} (before : Transmitting h fb s t)
      (e : Sys2Proof.Machine.step t = .next u) (hs : u.stripAt h = some st) (ha : st.active = true)
      (hf : st.fb = fb) : Transmitting h fb s u

/-- A run of the chunked encoder of one strip, from one strip state to another, with the descriptors it
pushed, in order; SEQ_STEPs may pop between its steps, and nothing writes the frame buffer (R101). -/
inductive ChunkedRun (memSymbols : Nat) : Strip → List Descriptor → Strip → Prop
  | start (st : Strip) : ChunkedRun memSymbols st [] st
  | push {st st₁ st₂ : Strip} {pushed new : List Descriptor} {status : EncStatus}
      (before : ChunkedRun memSymbols st pushed st₁) (enabled : st₁.encEnabled memSymbols = true)
      (e : st₁.encStep memSymbols = .ok (st₂, status)) (hn : st₂.symmem = st₁.symmem ++ new) :
      ChunkedRun memSymbols st (pushed ++ new) st₂
  | pop {st st₁ st₂ : Strip} {pushed : List Descriptor} {d : Descriptor}
      (before : ChunkedRun memSymbols st pushed st₁) (e : st₁.symPop = some (d, st₂)) :
      ChunkedRun memSymbols st pushed st₂

/-- What is left to do of the transmission in flight: bytes to encode, encoder transitions, descriptors
to put on the wire, and TX_DONE. Every internal step of R154 takes one away. -/
def Strip.workLeft (st : Strip) : Nat :=
  (st.fbLen - st.enc.cursor) + st.owed.length + st.active.toNat +
    match st.enc.state with
    | .encodingData => 2
    | .encodingReset => 1
    | .complete => 0

end Sys2Proof.Machine
end

