-- ==== Sys2Proof/Certificates/Slice0/Obligations.lean ====
section
/-! DEFINITION. The statements about the block, for the provers. Where a statement rests on a decision of the
spec (D<n>) or a choice of the model (log <n>), its docstring names it. Throughout, which move a step makes is read
from the model's inputs (log 2), and who is answered, and with what, from its fields `issuer` (log 5) and
`responses` (log 6); a good state is one with `State.Inv`, which holds the bounds of R4 and R5 on the parameters (U14)
and `N_STRIPS` at most 256 (log 12). -/

open Sys2Proof Sys2Proof.Machine

/-! ### Reset -/

/-- R190, R39 (the power-on values are the spec's decision D24), for every choice of parameters within the bounds of R4
and R5 (U14, log 12): every slot Absent, every wire low with an empty trace, the pool free, every task ready. -/
def Obligations.PowerOnResetState : Prop :=
  ∀ (c : Config) (hc : c.Bounds),
    (State.powerOn c hc).config = c ∧
    (State.powerOn c hc).slots.length = c.nStrips ∧
    (∀ h, (State.powerOn c hc).stripAt h = none) ∧
    (∀ g, ((State.powerOn c hc).wire g).trace = [] ∧ ((State.powerOn c hc).wire g).level = .low) ∧
    (State.powerOn c hc).poolFree = c.fbPoolBytes ∧
    (State.powerOn c hc).tasks.length = c.nTasks ∧
    (∀ t, (State.powerOn c hc).waitOf t = none) ∧
    ∃ hr, State.reset = State.powerOn Config.reference hr

/-- R35, R4, R5: the invariant, with the bounds on the parameters (U14) in it, holds after power-on reset, whatever the
parameters within those bounds (log 12 for `N_STRIPS` at most 256). -/
def Obligations.PowerOnResetSatisfiesInvariant : Prop :=
  ∀ (c : Config) (hc : c.Bounds), (State.powerOn c hc).Inv

/-! ### Steps and words -/

/-- R8, R9, R118: a task that is there and not waiting issues the next listed word, and the step is the
meaning of the decoded command in that state, the task its issuer (log 2, log 5); any other step is its
move. -/
def Obligations.StepRunsTheDecodedCommand : Prop :=
  (∀ (s : State) (t : Nat) (w : CommandWord) (rest : List Move) (i : Instr),
    s.schedule = .issue t w :: rest → t < s.tasks.length → s.waitOf t = none → decodeWord w = .ok i →
    i.WellFormed ∧ step s = exec i { s with schedule := rest, issuer := t }) ∧
  ∀ s : State, step s = runMove s.nextMove s.takeMove

/-- The word handed over by `withFetchWord` is what the very next step runs, issued by task 0, made ready for it;
nothing else of the block changes (the model's choice, log 25). -/
def Obligations.FetchWordIsTheNextCommand : Prop :=
  ∀ (s : State) (nbits w : Nat) (i : Instr), decodeTableWord nbits w = some i →
    ∃ u, step (s.withFetchWord nbits w) = exec i u ∧ u.config = s.config ∧ u.slots = s.slots ∧
      u.wires = s.wires ∧ u.poolFree = s.poolFree ∧ u.tasks = readyFirstTask s.tasks ∧
      u.schedule = s.schedule ∧ u.draws = s.draws ∧ u.issuer = 0

/-- Words written out in 95_test_vectors.md decode to the commands they stand for (V30, V31, V39, V40). -/
def Obligations.SpecWordsDecode : Prop :=
  decodeWord 0x010001080000038400989680#96 = .ok (.create .grbw 8 900 10000000) ∧
  decodeWord 0x020100000000038301020304#96 = .ok (.setPixel 1 899 ⟨1, 2, 3, 4⟩) ∧
  decodeWord 0x030100000000000000000000#96 = .ok (.clear 1) ∧
  decodeWord 0x040100000000000000000000#96 = .ok (.refresh 1) ∧
  decodeWord 0x05010000000003E800000000#96 = .ok (.refreshWait 1 1000) ∧
  decodeWord 0x060100000000000000000000#96 = .ok (.enable 1) ∧
  decodeWord 0x070100000000000000000000#96 = .ok (.disable 1) ∧
  decodeWord 0x080100000000000000000000#96 = .ok (.destroy 1) ∧
  decodeWord 0x010002080000000100989680#96 = .error (.reservedField 1)

/-- R80 to R83 (the formats are D2 and D12): no operand of any well-formed command is lost in its word. -/
def Obligations.DecodeOfEncode : Prop :=
  ∀ i : Instr, i.WellFormed → decodeWord (encode i) = .ok i

/-- R80 to R84 (D2): every legal word is the word of exactly one command, which is well formed. -/
def Obligations.LegalWordIsEncodedCommand : Prop :=
  ∀ (w : CommandWord) (i : Instr), decodeWord w = .ok i → i.WellFormed ∧ encode i = w

/-- R81's match and mask values (D2): a word selects a row of the opcode table iff it decodes to the command
of that row. -/
def Obligations.DecoderAgreesWithOpcodeTable : Prop :=
  ∀ (w : CommandWord), ∀ r ∈ opcodeRows,
    r.selects w = true ↔ ∃ i, decodeWord w = .ok i ∧ i.mnemonic = r.mnemonic

/-- R84 (D25): a word is refused by the decoder iff its opcode is not one of 0x01 to 0x08 or a reserved field
is not zero; such a word is answered IllegalCommand and changes nothing else of the block. -/
def Obligations.IllegalWordIsAnsweredOnly : Prop :=
  ∀ w : CommandWord,
    ((∃ e, decodeWord w = .error e) ↔ illegalWord w = true) ∧
    (illegalWord w = true → ∀ (s : State) (t : Nat), t < s.tasks.length → s.waitOf t = none →
      ∃ u, runMove (.issue t w) s = .next u ∧ u = { s with issuer := t, tasks := u.tasks } ∧
        Answers (responseWord .illegalCommand 0) { s with issuer := t } u)

/-- R86, R87 (the format and the numbers are the spec's decision D3): a response word holds its code in bits
7:0, its handle in bits 15:8 and zeros above, and no two codes share a number. -/
def Obligations.ResponseWordHoldsCodeAndHandle : Prop :=
  (∀ (code : ResultCode) (handle : Nat), handle < 256 →
    ((responseWord code handle).extractLsb' 0 8).toNat = code.number ∧
    ((responseWord code handle).extractLsb' 8 8).toNat = handle ∧
    (responseWord code handle).extractLsb' 16 16 = 0) ∧
  (∀ c d : ResultCode, c.number = d.number → c = d) ∧
  ResultCode.ok.number = 0 ∧ ResultCode.allocationError.number = 1 ∧
  ResultCode.peripheralError.number = 2 ∧ ResultCode.indexOutOfRange.number = 3 ∧
  ResultCode.transmitError.number = 4 ∧ ResultCode.timeoutError.number = 5 ∧
  ResultCode.validationError.number = 6 ∧ ResultCode.illegalCommand.number = 7

/-! ### CREATE -/

/-- R110 step 4, R25, R39, R86 (D5, D6, D8 and D13 are the spec's decisions; that no Live strip may have the
pin is U9, log 10): a CREATE whose checks pass installs the strip in the least Absent slot, takes its bytes
from the pool, answers its handle, and changes nothing else. -/
def Obligations.CreateInstallsStrip : Prop :=
  ∀ (s : State) (format : ChannelFormat) (gpio n hz h : Nat), s.issuer < s.tasks.length →
    1 ≤ n → n * channelsOf format ≤ s.poolFree →
    h < s.slots.length → s.stripAt h = none → (∀ k < h, (s.stripAt k).isSome = true) →
    (Profile.ofResolution s.config hz).Realisable s.config.durMax →
    (∀ st ∈ s.liveStrips, st.gpio ≠ gpio) →
    ∃ t st, exec (.create format gpio n hz) s = .next t ∧ t.stripAt h = some st ∧
      st.ledCount = n ∧ st.format = format ∧ st.gpio = gpio ∧ st.resolutionHz = hz ∧
      st.profile = ⟨ticks s.config.zeroHNs hz, ticks s.config.zeroLNs hz, ticks s.config.oneHNs hz,
        ticks s.config.oneLNs hz, ticks s.config.resetNs hz⟩ ∧
      st.fbBytes = List.replicate (n * channelsOf format) 0x00 ∧ Memory.wf st.fb ∧
      st.enabled = false ∧ st.enc = ⟨.encodingData, 0⟩ ∧ st.pending = 0 ∧ st.active = false ∧
      st.symmem = [] ∧
      t.poolFree = s.poolFree - n * channelsOf format ∧ OtherSlotsSame h s t ∧
      t = { s with slots := t.slots, poolFree := t.poolFree, tasks := t.tasks } ∧
      Answers (responseWord .ok h) s t

/-- R110, R111 (the conditions are D5, D6 and D8): CREATE reports the first of validation, allocation and
channel acquisition that fails, and changes nothing. That it does so also on the pin of a Live strip, before U9's
refusal, is the model's choice, log 10. -/
def Obligations.CreateReportsFirstFailure : Prop :=
  ∀ (s : State) (format : ChannelFormat) (gpio n hz : Nat), s.issuer < s.tasks.length →
    (n = 0 → FailsWith .validationError (.create format gpio n hz) s) ∧
    (1 ≤ n → s.poolFree < n * channelsOf format →
      FailsWith .allocationError (.create format gpio n hz) s) ∧
    (1 ≤ n → n * channelsOf format ≤ s.poolFree →
      ((∀ k < s.slots.length, (s.stripAt k).isSome = true) ∨
        ¬ (Profile.ofResolution s.config hz).Realisable s.config.durMax) →
      FailsWith .peripheralError (.create format gpio n hz) s)

/-- R110's corner cases (D7, D8): at the document's durations CREATE accepts exactly the resolutions 3 333 334
to 819 187 499 Hz, all else being well. -/
def Obligations.CreateAcceptsResolutionsInRange : Prop :=
  ∀ (s : State) (format : ChannelFormat) (gpio n hz h : Nat), s.issuer < s.tasks.length →
    s.config.Nominal → 1 ≤ n → n * channelsOf format ≤ s.poolFree →
    h < s.slots.length → s.stripAt h = none → (∀ k < h, (s.stripAt k).isSome = true) →
    (∀ st ∈ s.liveStrips, st.gpio ≠ gpio) →
    (3333334 ≤ hz ∧ hz ≤ 819187499 →
      ∃ t, exec (.create format gpio n hz) s = .next t ∧ Answers (responseWord .ok h) s t) ∧
    (hz < 3333334 ∨ 819187499 < hz → FailsWith .peripheralError (.create format gpio n hz) s)

/-- U9 (log 10): a CREATE that would succeed on the pin of a Live strip is refused. -/
def Obligations.CreateOnPinInUseIsRefused : Prop :=
  ∀ (s : State) (format : ChannelFormat) (gpio n hz h : Nat),
    1 ≤ n → n * channelsOf format ≤ s.poolFree →
    h < s.slots.length → s.stripAt h = none →
    (Profile.ofResolution s.config hz).Realisable s.config.durMax →
    (∃ st ∈ s.liveStrips, st.gpio = gpio) →
    exec (.create format gpio n hz) s = .refused (.pinInUse gpio)

/-! ### Frame-buffer writes -/

/-- R112, R113, R72, R83 (that the sample is stored as given is D11): SET_PIXEL in range stores the sample's
bytes at `index*channels + k`, ignores `s3` with 3 channels, leaves every other byte and everything else of
the block alone, and answers Ok. -/
def Obligations.SetPixelStoresTheSample : Prop :=
  ∀ (s : State) (h index : Nat) (sample : Sample) (st : Strip), s.issuer < s.tasks.length →
    s.stripAt h = some st → Memory.wf st.fb → index < st.ledCount →
    ∃ t m, exec (.setPixel h index sample) s = .next t ∧ t.stripAt h = some { st with fb := m } ∧
      Memory.wf m ∧
      Memory.read m (offset index st.channels) = sample.s0 ∧
      Memory.read m (offset index st.channels + 1) = sample.s1 ∧
      Memory.read m (offset index st.channels + 2) = sample.s2 ∧
      (st.channels = 4 → Memory.read m (offset index st.channels + 3) = sample.s3) ∧
      (∀ a, a < offset index st.channels ∨ offset index st.channels + st.channels ≤ a →
        Memory.read m a = Memory.read st.fb a) ∧
      OtherSlotsSame h s t ∧ t = { s with slots := t.slots, tasks := t.tasks } ∧
      Answers (responseWord .ok 0) s t

/-- R112, R113, R52: a SET_PIXEL with `index >= led_count` answers IndexOutOfRange and writes nothing; the
index `led_count` is one, the index `led_count - 1` is not. -/
def Obligations.SetPixelOutOfRangeWritesNothing : Prop :=
  ∀ (s : State) (h : Nat) (sample : Sample) (st : Strip), s.issuer < s.tasks.length →
    s.stripAt h = some st →
    (∀ index, st.ledCount ≤ index → FailsWith .indexOutOfRange (.setPixel h index sample) s) ∧
    (1 ≤ st.ledCount → ∃ t, exec (.setPixel h (st.ledCount - 1) sample) s = .next t ∧
      Answers (responseWord .ok 0) s t)

/-- R114: CLEAR zeroes the entire buffer, and does nothing else but answer Ok. -/
def Obligations.ClearZeroesTheBuffer : Prop :=
  ∀ (s : State) (h : Nat) (st : Strip), s.issuer < s.tasks.length → s.stripAt h = some st →
    ∃ t m, exec (.clear h) s = .next t ∧ t.stripAt h = some { st with fb := m } ∧
      (∀ k, Memory.read m k = 0x00) ∧ Memory.wf m ∧ OtherSlotsSame h s t ∧
      t = { s with slots := t.slots, tasks := t.tasks } ∧ Answers (responseWord .ok 0) s t

/-- R115 (the equivalence is derived there): CLEAR twice is CLEAR once, and CLEAR is SET_PIXEL of the zero
sample on every pixel, in any order, but for the answers. -/
def Obligations.ClearIsEveryPixelZeroed : Prop :=
  ∀ (s : State) (h : Nat) (st : Strip) (order : List Nat), s.Inv → s.stripAt h = some st →
    order.Perm (List.range st.ledCount) →
    ∃ t u v, exec (.clear h) s = .next t ∧ exec (.clear h) t = .next u ∧
      { u with tasks := s.tasks } = { t with tasks := s.tasks } ∧
      execAll (order.map fun index => .setPixel h index ⟨0, 0, 0, 0⟩) s = .next v ∧
      { v with tasks := s.tasks } = { t with tasks := s.tasks }

/-! ### Transmission -/

/-- R116, R143 (that a stopped stage rejects is D14): REFRESH adds one transmission to the queue and does
nothing else but answer Ok, unless the strip is disabled or its occupancy is the queue depth; then it answers
TransmitError and queues nothing. -/
def Obligations.RefreshQueuesOneTransmission : Prop :=
  ∀ (s : State) (h : Nat) (st : Strip), s.issuer < s.tasks.length → s.stripAt h = some st →
    (st.enabled = true → st.occupancy ≠ s.config.queueDepth →
      ∃ t, exec (.refresh h) s = .next t ∧
        t.stripAt h = some { st with pending := st.pending + 1 } ∧ OtherSlotsSame h s t ∧
        t = { s with slots := t.slots, tasks := t.tasks } ∧ Answers (responseWord .ok 0) s t) ∧
    (st.enabled = false ∨ st.occupancy = s.config.queueDepth →
      FailsWith .transmitError (.refresh h) s)

/-- R117, the document's Scenario D (derived there): from an idle enabled strip, of the REFRESH commands one
task issues with no TX_DONE between them, the first `QUEUE_DEPTH` are answered Ok and all later ones
TransmitError, however the strip's other internal steps fall between them (the list of moves is the model's, log 2;
one that is not enabled leaves the state, log 3). -/
def Obligations.RefreshesUpToTheQueueDepth : Prop :=
  ∀ (s : State) (h task : Nat) (st : Strip) (moves : List Move), h < 256 →
    s.stripAt h = some st → st.enabled = true → st.occupancy = 0 →
    task < s.tasks.length → s.waitOf task = none →
    (∀ m ∈ moves, m = .issue task (encode (.refresh h)) ∨ m = .txStart h ∨ m = .encStep h ∨
      m = .seqStep h) →
    ∃ t, Host.Core.run core moves.length { s with schedule := moves } = .next t ∧
      t.responsesOf task = s.responsesOf task ++
        List.replicate (min (moves.countP moveIsIssue) s.config.queueDepth) (responseWord .ok 0) ++
        List.replicate (moves.countP moveIsIssue - s.config.queueDepth)
          (responseWord .transmitError 0)

/-- R118 phase 1: REFRESH_WAIT that is accepted queues one transmission and leaves its task waiting, with no
answer yet; one that is rejected answers TransmitError, queues nothing and does not wait. -/
def Obligations.RefreshWaitQueuesAndWaits : Prop :=
  ∀ (s : State) (h timeoutMs : Nat) (st : Strip), s.issuer < s.tasks.length → s.stripAt h = some st →
    (st.enabled = true → st.occupancy ≠ s.config.queueDepth →
      ∃ t, exec (.refreshWait h timeoutMs) s = .next t ∧
        t.stripAt h = some { st with pending := st.pending + 1 } ∧ OtherSlotsSame h s t ∧
        t = { s with slots := t.slots, tasks := t.tasks } ∧
        t.waitOf s.issuer = some ⟨h, timeoutMs⟩ ∧ (∀ k, t.responsesOf k = s.responsesOf k) ∧
        ∀ k, k ≠ s.issuer → t.tasks[k]? = s.tasks[k]?) ∧
    (st.enabled = false ∨ st.occupancy = s.config.queueDepth →
      FailsWith .transmitError (.refreshWait h timeoutMs) s)

/-- R118 phase 2, R60, R144 (untimed, D21; log 4): a wait ends with Ok exactly when the channel's occupancy is
0, with TimeoutError only when it is not; either way only the task changes, and at occupancy 0 the encoder of the
strip has no step. That the alternative or step that does not occur leaves the state where it is chosen is the
model's choice, log 3. -/
def Obligations.WaitEndsByCompletionOrTimeout : Prop :=
  ∀ (s : State) (task : Nat) (w : Waiting) (st : Strip), s.waitOf task = some w →
    s.stripAt w.h = some st →
    (st.occupancy = 0 →
      (∃ t, runMove (.waitComplete task) s = .next t ∧ t = { s with tasks := t.tasks } ∧
        t.waitOf task = none ∧ t.responsesOf task = s.responsesOf task ++ [responseWord .ok 0] ∧
        ∀ k, k ≠ task → t.tasks[k]? = s.tasks[k]?) ∧
      runMove (.waitTimeout task) s = .next s ∧ runMove (.encStep w.h) s = .next s) ∧
    (0 < st.occupancy →
      (∃ t, runMove (.waitTimeout task) s = .next t ∧ t = { s with tasks := t.tasks } ∧
        t.waitOf task = none ∧
        t.responsesOf task = s.responsesOf task ++ [responseWord .timeoutError 0] ∧
        ∀ k, k ≠ task → t.tasks[k]? = s.tasks[k]?) ∧
      runMove (.waitComplete task) s = .next s)

/-! ### Output stage and destruction -/

/-- R122 (D15): ENABLE starts a stopped output stage, does nothing else but answer Ok, and fails with
PeripheralError on a started one. -/
def Obligations.EnableStartsTheOutputStage : Prop :=
  ∀ (s : State) (h : Nat) (st : Strip), s.issuer < s.tasks.length → s.stripAt h = some st →
    (st.enabled = false →
      ∃ t, exec (.enable h) s = .next t ∧ t.stripAt h = some { st with enabled := true } ∧
        OtherSlotsSame h s t ∧ t = { s with slots := t.slots, tasks := t.tasks } ∧
        Answers (responseWord .ok 0) s t) ∧
    (st.enabled = true → FailsWith .peripheralError (.enable h) s)

/-- R124 (D15, D16): DISABLE stops a started output stage with nothing pending or in flight, does nothing
else but answer Ok, and fails with PeripheralError otherwise. -/
def Obligations.DisableStopsAnIdleOutputStage : Prop :=
  ∀ (s : State) (h : Nat) (st : Strip), s.issuer < s.tasks.length → s.stripAt h = some st →
    (st.enabled = true → st.occupancy = 0 →
      ∃ t, exec (.disable h) s = .next t ∧ t.stripAt h = some { st with enabled := false } ∧
        OtherSlotsSame h s t ∧ t = { s with slots := t.slots, tasks := t.tasks } ∧
        Answers (responseWord .ok 0) s t) ∧
    (st.enabled = false ∨ 0 < st.occupancy → FailsWith .peripheralError (.disable h) s)

/-- R126 (D17, D26): DESTROY of a strip no task waits on. Idle, it leaves its slot Absent, returns its bytes to
the pool, keeps every wire, and answers Ok; with a transmission pending or in flight it fails with
PeripheralError. -/
def Obligations.DestroyReleasesAnIdleStrip : Prop :=
  ∀ (s : State) (h : Nat) (st : Strip), s.issuer < s.tasks.length → s.stripAt h = some st →
    (∀ task ∈ s.tasks, ∀ w ∈ task.wait, w.h ≠ h) →
    (st.occupancy = 0 →
      ∃ t, exec (.destroy h) s = .next t ∧ t.stripAt h = none ∧
        t.poolFree = s.poolFree + st.ledCount * st.channels ∧ OtherSlotsSame h s t ∧
        t = { s with slots := t.slots, poolFree := t.poolFree, tasks := t.tasks } ∧
        Answers (responseWord .ok 0) s t) ∧
    (0 < st.occupancy → FailsWith .peripheralError (.destroy h) s)

/-- R127: a command whose handle names no Live strip is refused, and so is a wait whose strip is gone. -/
def Obligations.CommandWithoutLiveStripIsRefused : Prop :=
  (∀ (s : State) (i : Instr) (h : Nat), handleOf i = some h → s.stripAt h = none →
    exec i s = .refused (if i = .destroy h then .destroyOfAbsent h else .noLiveStrip h)) ∧
  ∀ (s : State) (t : Nat) (w : Waiting), s.waitOf t = some w → s.stripAt w.h = none →
    runMove (.waitComplete t) s = .refused (.waitOnAbsentStrip w.h) ∧
    runMove (.waitTimeout t) s = .refused (.waitOnAbsentStrip w.h)

/-- R182 and U3 of 93_implementation_defined.md: the DESTROY of a strip a task waits on is refused, whatever the
strip's occupancy. -/
def Obligations.DestroyUnderAWaitIsRefused : Prop :=
  ∀ (s : State) (h : Nat) (st : Strip), s.stripAt h = some st →
    (∃ task ∈ s.tasks, ∃ w ∈ task.wait, w.h = h) →
    exec (.destroy h) s = .refused (.destroyWhileWaiting h)

/-! ### Errors -/

/-- R167: whatever step a task's error response comes from, that step changed nothing of the block: no slot, no
wire, no pool byte, no other task, and not the wait of the task that got the response, but that a TimeoutError (5)
ends it (R118). -/
def Obligations.ErrorResponseMeansNothingChanged : Prop :=
  ∀ (s t : State) (task : Nat) (w : ResponseWord), step s = .next t →
    t.responsesOf task = s.responsesOf task ++ [w] → w.extractLsb' 0 8 ≠ 0 →
    t.config = s.config ∧ t.slots = s.slots ∧ t.wires = s.wires ∧ t.poolFree = s.poolFree ∧
      (∀ k, k ≠ task → t.tasks[k]? = s.tasks[k]?) ∧
      (w.extractLsb' 0 8 ≠ 5 → t.waitOf task = s.waitOf task) ∧
      (w.extractLsb' 0 8 = 5 → t.waitOf task = none)

/-- R163, R161: no step faults, and in a good state a step is refused only for a command the host issued
against its duties (R182): a handle that names no Live strip, a strip a task waits on, a pin in use. -/
def Obligations.OnlyTheHostsBreachesStopTheMachine : Prop :=
  ∀ s : State, s.Inv →
    (∀ f, step s ≠ .fault f) ∧
    ∀ r, step s = .refused r → ∃ t w i, s.nextMove = .issue t w ∧ decodeWord w = .ok i ∧
      ((∃ h, handleOf i = some h ∧ s.stripAt h = none) ∨
        (∃ h, i = .destroy h ∧ ∃ task ∈ s.tasks, ∃ v ∈ task.wait, v.h = h) ∨
        ∃ format gpio n hz, i = .create format gpio n hz ∧ ∃ st ∈ s.liveStrips, st.gpio = gpio)

/-! ### The encoder -/

/-- R76, R77, R90: the two bit descriptors and their choice by the bit, with their values at 10 MHz. -/
def Obligations.BitDescriptors : Prop :=
  (∀ p : Profile, zeroBit p = ⟨.high, p.t0h, .low, p.t0l⟩ ∧ oneBit p = ⟨.high, p.t1h, .low, p.t1l⟩ ∧
    encodeBit p true = oneBit p ∧ encodeBit p false = zeroBit p) ∧
  ∀ c : Config, c.Nominal →
    zeroBit (Profile.ofResolution c 10000000) = ⟨.high, 3, .low, 9⟩ ∧
    oneBit (Profile.ofResolution c 10000000) = ⟨.high, 6, .low, 6⟩

/-- R78 (the exact total and the split are D9): RESET is low throughout, lasts `treset` ticks, is no bit
descriptor, and is (0, 400, 0, 400) at 10 MHz. -/
def Obligations.ResetDescriptor : Prop :=
  (∀ p : Profile, (resetPulse p).levelA = .low ∧ (resetPulse p).levelB = .low ∧
    (resetPulse p).durationA = p.treset / 2 ∧
    (resetPulse p).durationA + (resetPulse p).durationB = p.treset ∧
    ∀ q bit, resetPulse p ≠ encodeBit q bit) ∧
  ∀ c : Config, c.Nominal →
    resetPulse (Profile.ofResolution c 10000000) = ⟨.low, 400, .low, 400⟩

/-- R74, R203 (the rounding is D7): at a multiple of 10 MHz the tick counts are exact, so the document's
duration ratios are preserved. -/
def Obligations.TickCountsExactAtMultiplesOfTenMegahertz : Prop :=
  ∀ (c : Config) (k : Nat), c.Nominal →
    Profile.ofResolution c (10000000 * k) = ⟨3 * k, 9 * k, 6 * k, 6 * k, 800 * k⟩

/-- R79 (D10): the fields of a descriptor's word, for durations up to `DUR_MAX`; no two such descriptors share
a word. -/
def Obligations.DescriptorWordHoldsTheQuad : Prop :=
  ∀ d e : Descriptor, d.durationA ≤ 32767 → d.durationB ≤ 32767 → e.durationA ≤ 32767 →
    e.durationB ≤ 32767 →
    (d.word.extractLsb' 0 15).toNat = d.durationA ∧ d.word.extractLsb' 15 1 = d.levelA.bit ∧
    (d.word.extractLsb' 16 15).toNat = d.durationB ∧ d.word.extractLsb' 31 1 = d.levelB.bit ∧
    (d.word = e.word → d = e)

/-- R91: `encode_byte` gives exactly eight descriptors, element `j` for bit `7 - j`. -/
def Obligations.EncodeByteIsMsbFirst : Prop :=
  ∀ (p : Profile) (v : Byte), (encodeByte p v).length = 8 ∧
    ∀ i, i ≤ 7 → (encodeByte p v)[7 - i]? = some (if v.getLsbD i then oneBit p else zeroBit p)

/-- R92 (derived there): at every profile CREATE accepts at the document's durations, `encode_byte` is
injective. -/
def Obligations.EncodeByteIsInjective : Prop :=
  ∀ (c : Config) (hz : Nat), c.Nominal → (Profile.ofResolution c hz).Realisable c.durMax →
    ∀ v w : Byte, encodeByte (Profile.ofResolution c hz) v = encodeByte (Profile.ofResolution c hz) w →
      v = w

/-- R93: `encode_frame` is `encode_byte` of each byte in order, then RESET; of the empty buffer RESET alone. -/
def Obligations.EncodeFrameIsBytesThenReset : Prop :=
  ∀ (p : Profile), encodeFrame p [] = [resetPulse p] ∧
    (∀ (b : Byte) (bs : List Byte), encodeFrame p (b :: bs) = encodeByte p b ++ encodeFrame p bs) ∧
    ∀ bs : List Byte, (encodeFrame p bs).length = bs.length * 8 + 1

/-- R94, R95: a frame has `8*len + 1` descriptors, element `8*i + j` is bit `7 - j` of byte `i`, the last is
RESET and no other is. -/
def Obligations.FrameHasItsResetOnlyAtTheEnd : Prop :=
  ∀ (p : Profile) (b : List Byte), (encodeFrame p b).length = 8 * b.length + 1 ∧
    (∀ (i j : Nat) (hi : i < b.length), j < 8 →
      (encodeFrame p b)[8 * i + j]? = some (encodeBit p (b[i].getLsbD (7 - j)))) ∧
    ∀ k, (encodeFrame p b)[k]? = some (resetPulse p) ↔ k = 8 * b.length

/-- R98, R100 (whole bytes, as many as fit: D19; only in flight: D29): an enabled ENC_STEP in EncodingData pushes
the next bytes and moves the cursor; it goes to EncodingReset exactly when the buffer is exhausted; it is not enabled
with fewer than 8 places free or with nothing in flight, and that it then leaves the state is the model's choice,
log 3. -/
def Obligations.EncStepEncodesWholeBytes : Prop :=
  ∀ (s : State) (h : Nat) (st : Strip), s.stripAt h = some st → st.enc.state = .encodingData →
    (st.active = true → st.symmem.length + 8 ≤ s.config.memSymbols →
      ∀ n, n = min (st.fbLen - st.enc.cursor) ((s.config.memSymbols - st.symmem.length) / 8) →
      ∃ t, runMove (.encStep h) s = .next t ∧
        t.stripAt h = some { st with
          symmem := st.symmem ++ encodeBytes st.profile ((st.fbBytes.drop st.enc.cursor).take n)
          enc := ⟨if st.enc.cursor + n = st.fbLen then .encodingReset else .encodingData,
            st.enc.cursor + n⟩ } ∧
        OtherSlotsSame h s t ∧ t = { s with slots := t.slots }) ∧
    (st.active = false ∨ s.config.memSymbols < st.symmem.length + 8 →
      runMove (.encStep h) s = .next s)

/-- R99, R100 (D19, D29): in EncodingReset an enabled ENC_STEP pushes RESET and completes; with no free place,
with nothing in flight, and in Complete there is no step, and that a chosen one then leaves the state is the model's
choice, log 3. -/
def Obligations.EncStepPushesTheReset : Prop :=
  ∀ (s : State) (h : Nat) (st : Strip), s.stripAt h = some st →
    (st.enc.state = .encodingReset → st.active = true → st.symmem.length < s.config.memSymbols →
      ∃ t, runMove (.encStep h) s = .next t ∧
        t.stripAt h = some { st with
          symmem := st.symmem ++ [resetPulse st.profile]
          enc := ⟨.complete, st.enc.cursor⟩ } ∧
        OtherSlotsSame h s t ∧ t = { s with slots := t.slots }) ∧
    (st.enc.state = .encodingReset → s.config.memSymbols ≤ st.symmem.length →
      runMove (.encStep h) s = .next s) ∧
    (st.enc.state = .complete ∨ st.active = false → runMove (.encStep h) s = .next s)

/-- R96: the encoder of a Live strip changes state only by ENC_STEP, from EncodingData to EncodingReset and
from EncodingReset to Complete, and by the ENC_RESET of TX_START, to EncodingData with the cursor at 0; its
cursor never falls otherwise. -/
def Obligations.EncoderTransitions : Prop :=
  ∀ (s t : State) (h : Nat) (st st' : Strip), step s = .next t → s.stripAt h = some st →
    t.stripAt h = some st' →
    (st'.enc = st.enc) ∨ (s.nextMove = .txStart h ∧ st'.enc = ⟨.encodingData, 0⟩) ∨
    (s.nextMove = .encStep h ∧ st.enc.cursor ≤ st'.enc.cursor ∧
      ((st.enc.state = .encodingData ∧ st'.enc.state = .encodingData) ∨
        (st.enc.state = .encodingData ∧ st'.enc.state = .encodingReset) ∨
        (st.enc.state = .encodingReset ∧ st'.enc.state = .complete)))

/-- R101 (derived there): from an ENC_RESET to Complete, with no write to the frame buffer, the chunked encoder
pushes exactly `encode_frame` of the buffer, whatever the symbol memory, the chunks and the SEQ_STEPs
between. -/
def Obligations.ChunkedEncoderPushesTheFrame : Prop :=
  ∀ (memSymbols : Nat) (st st' : Strip) (pushed : List Descriptor),
    ChunkedRun memSymbols st.encReset pushed st' → st'.enc.state = .complete →
    pushed = encodeFrame st.profile st.fbBytes

/-! ### The peripheral -/

/-- R146 (D29): an enabled TX_START takes one transmission from the queue, puts it in flight, resets the encoder,
keeps the occupancy, and changes nothing else; where it is not enabled it does not occur, and that a chosen one then
leaves the state is the model's choice, log 3. -/
def Obligations.TxStartTakesOneTransmission : Prop :=
  ∀ (s : State) (h : Nat) (st : Strip), s.stripAt h = some st →
    (st.enabled = true → st.active = false → 0 < st.pending →
      ∃ t st', runMove (.txStart h) s = .next t ∧ t.stripAt h = some st' ∧
        st' = { st with pending := st.pending - 1, active := true, enc := ⟨.encodingData, 0⟩ } ∧
        st'.occupancy = st.occupancy ∧ OtherSlotsSame h s t ∧ t = { s with slots := t.slots }) ∧
    (st.enabled = false ∨ st.active = true ∨ st.pending = 0 → runMove (.txStart h) s = .next s)

/-- R147: an enabled SEQ_STEP takes the head of symbol memory and appends its two segments to the wire of the
strip's pin; in a good state neither has zero length. Where it is not enabled it does not occur, and that a chosen one
then leaves the state is the model's choice, log 3. -/
def Obligations.SeqStepEmitsOneDescriptor : Prop :=
  ∀ (s : State) (h : Nat) (st : Strip), s.Inv → s.stripAt h = some st →
    (∀ d rest, st.active = true → st.symmem = d :: rest →
      ∃ t, runMove (.seqStep h) s = .next t ∧ t.stripAt h = some { st with symmem := rest } ∧
        (t.wire st.gpio).trace = (s.wire st.gpio).trace ++
          [⟨d.levelA, d.durationA, st.resolutionHz⟩, ⟨d.levelB, d.durationB, st.resolutionHz⟩] ∧
        (t.wire st.gpio).level = d.levelB ∧ 1 ≤ d.durationA ∧ 1 ≤ d.durationB ∧
        (∀ g, g ≠ st.gpio → t.wire g = s.wire g) ∧ OtherSlotsSame h s t ∧
        t = { s with slots := t.slots, wires := t.wires }) ∧
    (st.active = false ∨ st.symmem = [] → runMove (.seqStep h) s = .next s)

/-- R149: TX_DONE occurs with the encoder Complete and symbol memory empty; it ends the transmission, lowers the
occupancy by one, leaves the encoder Complete with the cursor at the end of the buffer, enables the next
TX_START if one is queued, and changes nothing else. Where it is not enabled it does not occur, and that a chosen one
then leaves the state is the model's choice, log 3. -/
def Obligations.TxDoneEndsTheTransmission : Prop :=
  ∀ (s : State) (h : Nat) (st : Strip), s.Inv → s.stripAt h = some st →
    (st.active = true → st.enc.state = .complete → st.symmem = [] →
      ∃ t st', runMove (.txDone h) s = .next t ∧ t.stripAt h = some st' ∧
        st' = { st with active := false } ∧ st'.occupancy + 1 = st.occupancy ∧
        st'.enc = ⟨.complete, st'.fbLen⟩ ∧ (st'.txStartEnabled = true ↔ 0 < st'.pending) ∧
        OtherSlotsSame h s t ∧ t = { s with slots := t.slots }) ∧
    (st.active = false ∨ st.enc.state ≠ .complete ∨ st.symmem ≠ [] →
      runMove (.txDone h) s = .next s)

/-- R161: the encoder and the internal steps report no error: each answers a next state, whatever the state, and
gives no task a response; one that is not enabled does not occur, and that a chosen one then leaves the state is the
model's choice, log 3. -/
def Obligations.InternalStepsReportNothing : Prop :=
  ∀ (s : State) (h : Nat),
    (∀ m, internalOf h m → ∃ t, runMove m s = .next t ∧ t.tasks = s.tasks ∧ t.poolFree = s.poolFree) ∧
    ((∀ st, s.stripAt h = some st → st.txStartEnabled = false) → runMove (.txStart h) s = .next s) ∧
    ((∀ st, s.stripAt h = some st → st.encEnabled s.config.memSymbols = false) →
      runMove (.encStep h) s = .next s) ∧
    ((∀ st, s.stripAt h = some st → st.active = false ∨ st.symmem = []) →
      runMove (.seqStep h) s = .next s) ∧
    ((∀ st, s.stripAt h = some st → st.txDoneEnabled = false) → runMove (.txDone h) s = .next s)

/-- R154 (derived there): while a transmission is in flight in a good state (`MEM_SYMBOLS >= 8` in it, R5), some
internal step of its strip takes work away, and what is left is at most `9*len(fb) + 4`. -/
def Obligations.TransmissionAlwaysProgresses : Prop :=
  ∀ (s : State) (h : Nat) (st : Strip), s.Inv → s.stripAt h = some st → st.active = true →
    (st.symmem = [] → st.workLeft ≤ 9 * st.fbLen + 4) ∧
    ∃ m t st', internalOf h m ∧ runMove m s = .next t ∧ t.stripAt h = some st' ∧
      st'.workLeft < st.workLeft

/-- R154, R58 (derived there): a transmission in flight can always be driven to its end, by internal steps of its
own strip alone, no more of them than there is work left (the list of moves is the model's, log 2; that fairness
drives it there is `AcceptedTransmissionsComplete`). -/
def Obligations.TransmissionCanComplete : Prop :=
  ∀ (s : State) (h : Nat) (st : Strip), s.Inv → s.stripAt h = some st → st.active = true →
    ∃ moves : List Move, (∀ m ∈ moves, internalOf h m) ∧ moves.length ≤ st.workLeft ∧
      ∃ t st', Host.Core.run core moves.length { s with schedule := moves } = .next t ∧
        t.stripAt h = some st' ∧ st'.active = false ∧ st'.pending = st.pending ∧ st'.fb = st.fb

/-- R57, R150, R59, U7 (R57 is derived there): from a TX_START on, as long as no SET_PIXEL or CLEAR of the strip
takes effect, the wire has carried exactly the frame's segments but for those still owed, whatever the
chunking and whatever all other agents do; when TX_DONE is enabled it has carried the whole frame. -/
def Obligations.TransmissionPutsTheFrameOnTheWire : Prop :=
  ∀ (s s₁ t : State) (h : Nat) (st st' : Strip), s.Inv → s.stripAt h = some st →
    s.nextMove = .txStart h → st.txStartEnabled = true → step s = .next s₁ →
    Transmitting h st.fb s₁ t → t.stripAt h = some st' →
    (t.wire st.gpio).trace ++ segmentsOf st.resolutionHz st'.owed =
      (s.wire st.gpio).trace ++ segmentsOf st.resolutionHz (encodeFrame st.profile st.fbBytes) ∧
    (st'.txDoneEnabled = true →
      (t.wire st.gpio).trace =
        (s.wire st.gpio).trace ++ segmentsOf st.resolutionHz (encodeFrame st.profile st.fbBytes))

/-- R151 (derived there): the segments of one transmission, and its length in ticks where both bits last
`tbit`. -/
def Obligations.TransmissionSize : Prop :=
  ∀ (p : Profile) (hz : Nat) (b : List Byte),
    (segmentsOf hz (encodeFrame p b)).length = 2 * (8 * b.length + 1) ∧
    (∀ tbit, p.t0h + p.t0l = tbit → p.t1h + p.t1l = tbit →
      totalTicks (segmentsOf hz (encodeFrame p b)) = 8 * b.length * tbit + p.treset)

/-- R148, R156 (the clock of a segment is the model's choice, log 11): `norm` keeps the level and clock of every
tick, so the length in ticks too, and leaves no two adjacent segments of one level and one clock. -/
def Obligations.NormMergesEqualLevels : Prop :=
  ∀ trace : List Segment, ticksOf (normTrace trace) = ticksOf trace ∧
    totalTicks (normTrace trace) = totalTicks trace ∧
    ∀ (i : Nat) (a b : Segment), (normTrace trace)[i]? = some a → (normTrace trace)[i + 1]? = some b →
      ¬ (a.level = b.level ∧ a.resolutionHz = b.resolutionHz)

/-- R157 (derived there): in a good quiescent state no internal step is enabled, no wait can end, symbol memory
is empty and every wire is low. The commands left to issue are those in the model's list of inputs (log 2); that a
step or alternative that is not enabled leaves the state is the model's choice, log 3. -/
def Obligations.QuiescentStateHasNoInternalStep : Prop :=
  ∀ s : State, s.Inv → s.Quiescent →
    (∀ m, moveIsIssue m = false → runMove m s = .next s) ∧
    (∀ st ∈ s.liveStrips, st.symmem = []) ∧ ∀ g, (s.wire g).level = .low

/-! ### Whole-machine rules -/

/-- R35: every step keeps the invariant, from every good state. -/
def Obligations.StepKeepsInvariant : Prop :=
  ∀ s t : State, s.Inv → step s = .next t → t.Inv

/-- R40, R22: a slot changes only by an internal step of its own, by a command that names it, or by the CREATE
that takes it. -/
def Obligations.SlotsAreIsolated : Prop :=
  ∀ (s t : State) (k : Nat), step s = .next t → t.stripAt k ≠ s.stripAt k →
    internalOf k s.nextMove ∨
    ∃ task w i, s.nextMove = .issue task w ∧ decodeWord w = .ok i ∧
      (handleOf i = some k ∨
        ∃ format gpio n hz, i = .create format gpio n hz ∧ s.stripAt k = none ∧
          ∀ j < k, (s.stripAt j).isSome = true)

/-- R33, R40, R147: a wire changes only by the SEQ_STEP of the Live strip on its pin, which appends the two
segments of the head of that strip's symbol memory; so a trace is only ever appended to. -/
def Obligations.WireIsWrittenOnlyByItsSequencer : Prop :=
  ∀ (s t : State) (g : Nat), s.Inv → step s = .next t → t.wire g ≠ s.wire g →
    ∃ h st d rest, s.nextMove = .seqStep h ∧ s.stripAt h = some st ∧ st.gpio = g ∧ st.active = true ∧
      st.symmem = d :: rest ∧
      (t.wire g).trace = (s.wire g).trace ++ d.segments st.resolutionHz ∧ (t.wire g).level = d.levelB

/-- R26, R117: the frame buffer of a Live strip is changed only by a SET_PIXEL or a CLEAR that names it; no
REFRESH and no internal step changes it. -/
def Obligations.FrameBufferIsWrittenOnlyBySetPixelAndClear : Prop :=
  ∀ (s t : State) (k : Nat) (st st' : Strip), step s = .next t → s.stripAt k = some st →
    t.stripAt k = some st' → st'.fb ≠ st.fb →
    ∃ task w, s.nextMove = .issue task w ∧
      ((∃ index sample, decodeWord w = .ok (.setPixel k index sample)) ∨ decodeWord w = .ok (.clear k))

/-- R24, R25, R36: the configuration and tick registers of a Live strip and the parameters of the block are
never changed. -/
def Obligations.ConfigurationIsReadOnly : Prop :=
  ∀ (s t : State), step s = .next t → t.config = s.config ∧
    ∀ (k : Nat) (st st' : Strip), s.stripAt k = some st → t.stripAt k = some st' →
      st'.ledCount = st.ledCount ∧ st'.format = st.format ∧ st'.gpio = st.gpio ∧
      st'.resolutionHz = st.resolutionHz ∧ st'.profile = st.profile

/-- R153: no step cancels a transmission: a strip with work stays Live, a queued transmission leaves the queue
only into flight, the one in flight ends only by TX_DONE with nothing owed, and symbol memory loses only its
head, to the sequencer. -/
def Obligations.NoTransmissionIsCancelled : Prop :=
  ∀ (s t : State) (h : Nat) (st : Strip), step s = .next t → s.stripAt h = some st →
    0 < st.occupancy →
    ∃ st', t.stripAt h = some st' ∧
      (st.pending ≤ st'.pending ∨
        (s.nextMove = .txStart h ∧ st'.pending + 1 = st.pending ∧ st'.active = true)) ∧
      (st.active = true → st'.active = true ∨
        (s.nextMove = .txDone h ∧ st.enc.state = .complete ∧ st.symmem = [])) ∧
      (st.symmem <+: st'.symmem ∨
        (s.nextMove = .seqStep h ∧ ∃ d, st.symmem = d :: st'.symmem))

/-! ### Completion status, fairness -/

/-- R29, R98, R99 (D19): the completion status. An enabled ENC_STEP returns MoreData from EncodingData, also where it
exhausts the buffer, and Complete from EncodingReset; it is the status of the state it leaves the encoder in. -/
def Obligations.EncStepReturnsItsStatus : Prop :=
  ∀ (s : State) (h : Nat) (st : Strip), s.stripAt h = some st →
    st.encEnabled s.config.memSymbols = true →
    ∃ st' status, st.encStep s.config.memSymbols = .ok (st', status) ∧
      runMove (.encStep h) s = .next (s.setStrip h st') ∧ status = st'.enc.state.status ∧
      (st.enc.state = .encodingData → status = .moreData) ∧
      (st.enc.state = .encodingReset → status = .complete)

/-- R58, R154 (derived there; weak fairness is D35): in every weakly fair execution every accepted transmission
completes: the queue being first in first out (R59), those a strip holds at time `n` are over once as many TX_DONE of
it were taken. An execution's moves are whatever is chosen at each time, one that is not enabled leaving the state
(log 3, log 22). -/
def Obligations.AcceptedTransmissionsComplete : Prop :=
  ∀ (states : Nat → State) (moves : Nat → Move) (h n : Nat) (st : Strip),
    IsExecution states moves → WeaklyFair states moves → (states 0).Inv →
    (states n).stripAt h = some st →
    ∃ k, n ≤ k ∧ completions states moves h n k = st.occupancy

/-- R157, R154 (derived there; weak fairness is D35): once the host issues nothing more, a weakly fair execution comes
to a state from which on no strip has work and every wait that lasts can end with Ok. Fairness asks nothing of a wait
(R58); if none lasts for ever, the execution comes to rest: no task waits either. That a chosen step that is not
enabled leaves the state is log 3 (log 22). -/
def Obligations.FairSilentHostReachesQuiescence : Prop :=
  ∀ (states : Nat → State) (moves : Nat → Move) (n : Nat),
    IsExecution states moves → WeaklyFair states moves → (states 0).Inv →
    (∀ k, n ≤ k → moveIsIssue (moves k) = false) →
    ∃ k, n ≤ k ∧
      (∀ j, k ≤ j → (∀ st ∈ (states j).liveStrips, st.pending = 0 ∧ st.active = false) ∧
        ∀ task, (states j).waitOf task ≠ none → (states j).enabled (.waitComplete task) = true) ∧
      ((∀ task, ∃ j, k ≤ j ∧ (states j).waitOf task = none) →
        ∃ q, k ≤ q ∧ ∀ j, q ≤ j → ∀ task ∈ (states j).tasks, task.wait = none)
end

