-- ==== Sys2Proof/Laws/Memory.lean ====
section
/-! SUPPORT. Sparse storage: read after write, the canonical form kept, equal reads give equal storage; the
frame-buffer primitives inside the buffer. -/

namespace Sys2Proof.Machine

section Cells

variable {α : Type} {d : α}

theorem cellRead_of_below {l : List (Nat × α)} {a : Nat} (h : ∀ c ∈ l, a < c.1) :
    cellRead d l a = d := by
  induction l with
  | nil => rfl
  | cons c rest ih =>
    have hc := h c List.mem_cons_self
    have : a ≠ c.1 := by omega
    simp only [cellRead, this, if_false]
    exact ih fun e he => h e (List.mem_cons_of_mem _ he)

theorem cellRead_of_mem {l : List (Nat × α)} (hs : l.Pairwise (fun c e => c.1 < e.1))
    {c : Nat × α} (hc : c ∈ l) : cellRead d l c.1 = c.2 := by
  induction l with
  | nil => cases hc
  | cons e rest ih =>
    rw [List.pairwise_cons] at hs
    rcases List.mem_cons.mp hc with rfl | hc
    · simp [cellRead]
    · have : c.1 ≠ e.1 := by have := hs.1 c hc; omega
      simp only [cellRead, this, if_false]
      exact ih hs.2 hc

theorem mem_of_cellRead_ne {l : List (Nat × α)} {a : Nat} (h : cellRead d l a ≠ d) :
    (a, cellRead d l a) ∈ l := by
  induction l with
  | nil => exact absurd rfl h
  | cons c rest ih =>
    by_cases hac : a = c.1
    · subst hac; simp [cellRead]
    · simp only [cellRead, hac, if_false] at h ⊢
      exact List.mem_cons_of_mem _ (ih h)

variable [DecidableEq α]

/-- Read after write, at every address. -/
theorem cellRead_cellWrite {l : List (Nat × α)} (hs : l.Pairwise (fun c e => c.1 < e.1))
    (a : Nat) (v : α) (b : Nat) :
    cellRead d (cellWrite d l a v) b = if b = a then v else cellRead d l b := by
  induction l with
  | nil =>
    by_cases hv : v = d <;> by_cases hb : b = a <;> simp [cellWrite, cellRead, hv, hb]
  | cons c rest ih =>
    rw [List.pairwise_cons] at hs
    have below : ∀ a, a ≤ c.1 → cellRead d rest a = d := fun a ha =>
      cellRead_of_below fun e he => by have := hs.1 e he; omega
    simp only [cellWrite]
    split
    · next hlt =>
      split
      · next hv =>
        subst hv
        by_cases hb : b = a
        · subst hb
          have : b ≠ c.1 := by omega
          simp [cellRead, this, below b (by omega)]
        · simp [hb]
      · by_cases hb : b = a <;> simp [cellRead, hb]
    · split
      · next hnlt hac =>
        subst hac
        split
        · next hv =>
          subst hv
          by_cases hb : b = c.1
          · subst hb; simp [below c.1 (Nat.le_refl _)]
          · simp [cellRead, hb]
        · by_cases hb : b = c.1 <;> simp [cellRead, hb]
      · next hnlt hne =>
        simp only [cellRead, ih hs.2]
        by_cases hbc : b = c.1
        · have : b ≠ a := by omega
          subst hbc
          simp [this]
        · simp [hbc]

theorem mem_cellWrite {l : List (Nat × α)} {a : Nat} {v : α} {c : Nat × α}
    (h : c ∈ cellWrite d l a v) : c = (a, v) ∧ v ≠ d ∨ c ∈ l := by
  induction l with
  | nil =>
    by_cases hv : v = d <;> simp_all [cellWrite]
  | cons e rest ih =>
    simp only [cellWrite] at h
    split at h
    · split at h
      · exact .inr h
      · next hv => rcases List.mem_cons.mp h with rfl | h <;> simp_all
    · split at h
      · split at h
        · exact .inr (List.mem_cons_of_mem _ h)
        · next hv => rcases List.mem_cons.mp h with rfl | h <;> simp_all
      · rcases List.mem_cons.mp h with rfl | h
        · simp
        · rcases ih h with h | h
          · exact .inl h
          · exact .inr (List.mem_cons_of_mem _ h)

/-- A write keeps the canonical form. -/
theorem cellsWf_cellWrite {l : List (Nat × α)} (h : CellsWf d l) (a : Nat) (v : α) :
    CellsWf d (cellWrite d l a v) := by
  refine ⟨?_, fun c hc => ?_⟩
  · obtain ⟨hs, -⟩ := h
    induction l with
    | nil => by_cases hv : v = d <;> simp [cellWrite, hv]
    | cons c rest ih =>
      have hs' := List.pairwise_cons.mp hs
      simp only [cellWrite]
      split
      · next hlt =>
        split
        · exact hs
        · refine List.pairwise_cons.mpr ⟨fun e he => ?_, hs⟩
          rcases List.mem_cons.mp he with rfl | he
          · exact hlt
          · have := hs'.1 e he; simp only; omega
      · split
        · next hnlt hac =>
          split
          · exact hs'.2
          · exact List.pairwise_cons.mpr ⟨fun e he => by have := hs'.1 e he; simp only; omega, hs'.2⟩
        · next hnlt hne =>
          refine List.pairwise_cons.mpr ⟨fun e he => ?_, ih hs'.2⟩
          rcases mem_cellWrite he with ⟨rfl, -⟩ | he
          · simp only; omega
          · exact hs'.1 e he
  · rcases mem_cellWrite hc with ⟨rfl, hv⟩ | hc
    · exact hv
    · exact h.2 c hc

omit [DecidableEq α] in
/-- Two canonical storages that read the same everywhere are equal. -/
theorem cells_ext {l m : List (Nat × α)} (hl : CellsWf d l) (hm : CellsWf d m)
    (h : ∀ a, cellRead d l a = cellRead d m a) : l = m := by
  induction l generalizing m with
  | nil =>
    cases m with
    | nil => rfl
    | cons e m =>
      have := h e.1
      rw [cellRead_of_mem hm.1 List.mem_cons_self] at this
      exact absurd this.symm (hm.2 e List.mem_cons_self)
  | cons c l ih =>
    cases m with
    | nil =>
      have := h c.1
      rw [cellRead_of_mem hl.1 List.mem_cons_self] at this
      exact absurd this (hl.2 c List.mem_cons_self)
    | cons e m =>
      have hl' := List.pairwise_cons.mp hl.1
      have hm' := List.pairwise_cons.mp hm.1
      have hce : c.1 = e.1 := by
        rcases Nat.lt_trichotomy c.1 e.1 with hlt | heq | hgt
        · exfalso
          have h1 := h c.1
          rw [cellRead_of_mem hl.1 List.mem_cons_self, cellRead_of_below] at h1
          · exact hl.2 c List.mem_cons_self h1
          · intro x hx
            rcases List.mem_cons.mp hx with rfl | hx
            · exact hlt
            · exact Nat.lt_trans hlt (hm'.1 x hx)
        · exact heq
        · exfalso
          have h1 := h e.1
          rw [cellRead_of_mem hm.1 List.mem_cons_self, cellRead_of_below] at h1
          · exact hm.2 e List.mem_cons_self h1.symm
          · intro x hx
            rcases List.mem_cons.mp hx with rfl | hx
            · exact hgt
            · exact Nat.lt_trans hgt (hl'.1 x hx)
      have hv : c.2 = e.2 := by
        have h1 := h c.1
        rw [cellRead_of_mem hl.1 List.mem_cons_self, hce,
          cellRead_of_mem hm.1 List.mem_cons_self] at h1
        exact h1
      have : c = e := Prod.ext hce hv
      subst this
      congr 1
      refine ih ⟨hl'.2, fun x hx => hl.2 x (List.mem_cons_of_mem _ hx)⟩
        ⟨hm'.2, fun x hx => hm.2 x (List.mem_cons_of_mem _ hx)⟩ fun a => ?_
      by_cases hac : a = c.1
      · subst hac
        rw [cellRead_of_below hl'.1, cellRead_of_below hm'.1]
      · have := h a
        simpa [cellRead, hac] using this

end Cells

@[simp] theorem Memory.read_nil (k : Nat) : Memory.read [] k = 0x00 := rfl

theorem Memory.wf_nil : Memory.wf [] := ⟨List.Pairwise.nil, fun _ h => by cases h⟩

theorem Memory.read_write {m : Memory} (h : Memory.wf m) (k : Nat) (v : Byte) (j : Nat) :
    Memory.read (Memory.write m k v) j = if j = k then v else Memory.read m j :=
  cellRead_cellWrite h.1 k v j

theorem Memory.wf_write {m : Memory} (h : Memory.wf m) (k : Nat) (v : Byte) :
    Memory.wf (Memory.write m k v) := cellsWf_cellWrite h k v

theorem Memory.ext_read {m n : Memory} (hm : Memory.wf m) (hn : Memory.wf n)
    (h : ∀ k, Memory.read m k = Memory.read n k) : m = n := cells_ext hm hn h

/-- FbLoad inside the buffer reads exactly the bytes there. -/
theorem Strip.fbLoad_ok (st : Strip) (k n : Nat) (h : k + n ≤ st.fbLen) :
    st.fbLoad k n = .ok ((List.range' k n).map (Memory.read st.fb)) := by
  induction n generalizing k with
  | zero => rfl
  | succ n ih =>
    have hk : k < st.fbLen := by omega
    rw [Strip.fbLoad]
    simp [Strip.fbRead, hk, ih (k + 1) (by omega), List.range'_succ]

@[simp] theorem Strip.fbLen_with_fb (st : Strip) (m : Memory) :
    ({ st with fb := m } : Strip).fbLen = st.fbLen := rfl

/-- FbStore inside the buffer does not fault and changes nothing but the buffer. -/
theorem Strip.fbStore_inside (vs : List Byte) (st : Strip) (k : Nat) (h : k + vs.length ≤ st.fbLen) :
    ∃ m : Memory, st.fbStore k vs = .ok { st with fb := m } := by
  induction vs generalizing st k with
  | nil => exact ⟨st.fb, rfl⟩
  | cons v vs ih =>
    simp only [List.length_cons] at h
    have hk : k < st.fbLen := by omega
    obtain ⟨m, hm⟩ := ih { st with fb := Memory.write st.fb k v } (k + 1) (by simp; omega)
    exact ⟨m, by simp only [Strip.fbStore, Strip.fbWrite, hk, if_true]; exact hm⟩

/-- FbStore keeps everything but the buffer, and the buffer's canonical form and bounds. -/
theorem Strip.fbStore_keeps {vs : List Byte} {st st' : Strip} {k : Nat} (e : st.fbStore k vs = .ok st') :
    st' = { st with fb := st'.fb } ∧ (Memory.wf st.fb → Memory.wf st'.fb) ∧
      ((∀ c ∈ st.fb, c.1 < st.fbLen) → ∀ c ∈ st'.fb, c.1 < st.fbLen) := by
  induction vs generalizing st k with
  | nil => cases e; exact ⟨rfl, id, id⟩
  | cons v vs ih =>
    simp only [Strip.fbStore, Strip.fbWrite] at e
    split at e
    · cases e
    · next st₁ h₁ =>
      split at h₁
      · next hk =>
        cases h₁
        obtain ⟨h1, h2, h3⟩ := ih e
        refine ⟨h1, fun hw => h2 (Memory.wf_write hw k v), fun hb => h3 fun c hc => ?_⟩
        rcases mem_cellWrite hc with ⟨rfl, -⟩ | hc
        · exact hk
        · exact hb c hc
      · cases h₁

/-- The bytes FbStore stores land where they are stored, and every other byte stays. -/
theorem Strip.fbStore_read {vs : List Byte} {st st' : Strip} {k : Nat} (e : st.fbStore k vs = .ok st')
    (hwf : Memory.wf st.fb) :
    (∀ j b, vs[j]? = some b → Memory.read st'.fb (k + j) = b) ∧
      (∀ a, (a < k ∨ k + vs.length ≤ a) → Memory.read st'.fb a = Memory.read st.fb a) := by
  induction vs generalizing st k with
  | nil => cases e; simp
  | cons v vs ih =>
    simp only [Strip.fbStore, Strip.fbWrite] at e
    split at e
    · cases e
    · next st₁ h₁ =>
      split at h₁
      · next hk =>
        cases h₁
        obtain ⟨hin, hout⟩ := ih e (Memory.wf_write hwf k v)
        refine ⟨fun j b hj => ?_, fun a ha => ?_⟩
        · cases j with
          | zero =>
            simp only [List.getElem?_cons_zero, Option.some.injEq] at hj
            rw [Nat.add_zero, hout k (.inl (by omega)), ← hj]
            simp [Memory.read_write hwf]
          | succ j =>
            have := hin j b (by simpa using hj)
            rwa [show k + 1 + j = k + (j + 1) by omega] at this
        · simp only [List.length_cons] at ha
          rw [hout a (by omega), Memory.read_write hwf]
          have : a ≠ k := by omega
          simp [this]
      · cases h₁

theorem sampleLength_le (st : Strip) : 3 ≤ st.channels ∧ st.channels ≤ 4 := by
  unfold Strip.channels; cases st.format <;> simp [channelsOf]

theorem channelsOf_pos (f : ChannelFormat) : 3 ≤ channelsOf f ∧ channelsOf f ≤ 4 := by
  cases f <;> simp [channelsOf]

/-- A pixel in range lies inside the buffer (R52). -/
theorem pixel_inside {index n c : Nat} (h : index < n) : index * c + c ≤ n * c := by
  calc index * c + c = (index + 1) * c := by ring
    _ ≤ n * c := Nat.mul_le_mul_right c h

end Sys2Proof.Machine
end

