-- ==== Sys2Proof/Laws/State.lean ====
section
/-! SUPPORT. The state's small lemmas: one per field per update, by rfl, and what an update does to the slots,
the tasks and the wires. -/

namespace Sys2Proof.Machine

section Fields

variable (s : State)

@[simp] theorem State.setStrip_config (h : Nat) (st : Strip) : (s.setStrip h st).config = s.config := rfl
@[simp] theorem State.setStrip_slots (h : Nat) (st : Strip) : (s.setStrip h st).slots = s.slots.set h (some st) := rfl
@[simp] theorem State.setStrip_wires (h : Nat) (st : Strip) : (s.setStrip h st).wires = s.wires := rfl
@[simp] theorem State.setStrip_poolFree (h : Nat) (st : Strip) : (s.setStrip h st).poolFree = s.poolFree := rfl
@[simp] theorem State.setStrip_tasks (h : Nat) (st : Strip) : (s.setStrip h st).tasks = s.tasks := rfl
@[simp] theorem State.setStrip_issuer (h : Nat) (st : Strip) : (s.setStrip h st).issuer = s.issuer := rfl
@[simp] theorem State.setStrip_schedule (h : Nat) (st : Strip) : (s.setStrip h st).schedule = s.schedule := rfl
@[simp] theorem State.setStrip_draws (h : Nat) (st : Strip) : (s.setStrip h st).draws = s.draws := rfl

@[simp] theorem State.clearSlot_config (h : Nat) : (s.clearSlot h).config = s.config := rfl
@[simp] theorem State.clearSlot_slots (h : Nat) : (s.clearSlot h).slots = s.slots.set h none := rfl
@[simp] theorem State.clearSlot_wires (h : Nat) : (s.clearSlot h).wires = s.wires := rfl
@[simp] theorem State.clearSlot_poolFree (h : Nat) : (s.clearSlot h).poolFree = s.poolFree := rfl
@[simp] theorem State.clearSlot_tasks (h : Nat) : (s.clearSlot h).tasks = s.tasks := rfl
@[simp] theorem State.clearSlot_issuer (h : Nat) : (s.clearSlot h).issuer = s.issuer := rfl
@[simp] theorem State.clearSlot_schedule (h : Nat) : (s.clearSlot h).schedule = s.schedule := rfl
@[simp] theorem State.clearSlot_draws (h : Nat) : (s.clearSlot h).draws = s.draws := rfl

@[simp] theorem State.respond_config (t : Nat) (w : ResponseWord) : (s.respond t w).config = s.config := rfl
@[simp] theorem State.respond_slots (t : Nat) (w : ResponseWord) : (s.respond t w).slots = s.slots := rfl
@[simp] theorem State.respond_wires (t : Nat) (w : ResponseWord) : (s.respond t w).wires = s.wires := rfl
@[simp] theorem State.respond_poolFree (t : Nat) (w : ResponseWord) : (s.respond t w).poolFree = s.poolFree := rfl
@[simp] theorem State.respond_issuer (t : Nat) (w : ResponseWord) : (s.respond t w).issuer = s.issuer := rfl
@[simp] theorem State.respond_schedule (t : Nat) (w : ResponseWord) : (s.respond t w).schedule = s.schedule := rfl
@[simp] theorem State.respond_draws (t : Nat) (w : ResponseWord) : (s.respond t w).draws = s.draws := rfl

@[simp] theorem State.answer_config (code : ResultCode) : (s.answer code).config = s.config := rfl
@[simp] theorem State.answer_slots (code : ResultCode) : (s.answer code).slots = s.slots := rfl
@[simp] theorem State.answer_wires (code : ResultCode) : (s.answer code).wires = s.wires := rfl
@[simp] theorem State.answer_poolFree (code : ResultCode) : (s.answer code).poolFree = s.poolFree := rfl
@[simp] theorem State.answer_issuer (code : ResultCode) : (s.answer code).issuer = s.issuer := rfl
@[simp] theorem State.answer_schedule (code : ResultCode) : (s.answer code).schedule = s.schedule := rfl
@[simp] theorem State.answer_draws (code : ResultCode) : (s.answer code).draws = s.draws := rfl

@[simp] theorem State.answerHandle_config (h : Nat) : (s.answerHandle h).config = s.config := rfl
@[simp] theorem State.answerHandle_slots (h : Nat) : (s.answerHandle h).slots = s.slots := rfl
@[simp] theorem State.answerHandle_wires (h : Nat) : (s.answerHandle h).wires = s.wires := rfl
@[simp] theorem State.answerHandle_poolFree (h : Nat) : (s.answerHandle h).poolFree = s.poolFree := rfl
@[simp] theorem State.answerHandle_issuer (h : Nat) : (s.answerHandle h).issuer = s.issuer := rfl
@[simp] theorem State.answerHandle_schedule (h : Nat) : (s.answerHandle h).schedule = s.schedule := rfl
@[simp] theorem State.answerHandle_draws (h : Nat) : (s.answerHandle h).draws = s.draws := rfl

@[simp] theorem State.setWait_config (t : Nat) (w : Option Waiting) : (s.setWait t w).config = s.config := rfl
@[simp] theorem State.setWait_slots (t : Nat) (w : Option Waiting) : (s.setWait t w).slots = s.slots := rfl
@[simp] theorem State.setWait_wires (t : Nat) (w : Option Waiting) : (s.setWait t w).wires = s.wires := rfl
@[simp] theorem State.setWait_poolFree (t : Nat) (w : Option Waiting) : (s.setWait t w).poolFree = s.poolFree := rfl
@[simp] theorem State.setWait_issuer (t : Nat) (w : Option Waiting) : (s.setWait t w).issuer = s.issuer := rfl
@[simp] theorem State.setWait_schedule (t : Nat) (w : Option Waiting) : (s.setWait t w).schedule = s.schedule := rfl
@[simp] theorem State.setWait_draws (t : Nat) (w : Option Waiting) : (s.setWait t w).draws = s.draws := rfl

@[simp] theorem State.endWait_config (t : Nat) (code : ResultCode) : (s.endWait t code).config = s.config := rfl
@[simp] theorem State.endWait_slots (t : Nat) (code : ResultCode) : (s.endWait t code).slots = s.slots := rfl
@[simp] theorem State.endWait_wires (t : Nat) (code : ResultCode) : (s.endWait t code).wires = s.wires := rfl
@[simp] theorem State.endWait_poolFree (t : Nat) (code : ResultCode) : (s.endWait t code).poolFree = s.poolFree := rfl
@[simp] theorem State.endWait_issuer (t : Nat) (code : ResultCode) : (s.endWait t code).issuer = s.issuer := rfl
@[simp] theorem State.endWait_schedule (t : Nat) (code : ResultCode) : (s.endWait t code).schedule = s.schedule := rfl
@[simp] theorem State.endWait_draws (t : Nat) (code : ResultCode) : (s.endWait t code).draws = s.draws := rfl

@[simp] theorem State.wireEmit_config (g : Nat) (seg : Segment) : (s.wireEmit g seg).config = s.config := rfl
@[simp] theorem State.wireEmit_slots (g : Nat) (seg : Segment) : (s.wireEmit g seg).slots = s.slots := rfl
@[simp] theorem State.wireEmit_poolFree (g : Nat) (seg : Segment) : (s.wireEmit g seg).poolFree = s.poolFree := rfl
@[simp] theorem State.wireEmit_tasks (g : Nat) (seg : Segment) : (s.wireEmit g seg).tasks = s.tasks := rfl
@[simp] theorem State.wireEmit_issuer (g : Nat) (seg : Segment) : (s.wireEmit g seg).issuer = s.issuer := rfl
@[simp] theorem State.wireEmit_schedule (g : Nat) (seg : Segment) : (s.wireEmit g seg).schedule = s.schedule := rfl
@[simp] theorem State.wireEmit_draws (g : Nat) (seg : Segment) : (s.wireEmit g seg).draws = s.draws := rfl

@[simp] theorem State.releaseStrip_config (h : Nat) (st : Strip) : (s.releaseStrip h st).config = s.config := rfl
@[simp] theorem State.releaseStrip_slots (h : Nat) (st : Strip) : (s.releaseStrip h st).slots = s.slots.set h none := rfl
@[simp] theorem State.releaseStrip_wires (h : Nat) (st : Strip) : (s.releaseStrip h st).wires = s.wires := rfl
@[simp] theorem State.releaseStrip_poolFree (h : Nat) (st : Strip) : (s.releaseStrip h st).poolFree = s.poolFree + st.fbLen := rfl
@[simp] theorem State.releaseStrip_tasks (h : Nat) (st : Strip) : (s.releaseStrip h st).tasks = s.tasks := rfl
@[simp] theorem State.releaseStrip_issuer (h : Nat) (st : Strip) : (s.releaseStrip h st).issuer = s.issuer := rfl
@[simp] theorem State.releaseStrip_schedule (h : Nat) (st : Strip) : (s.releaseStrip h st).schedule = s.schedule := rfl
@[simp] theorem State.releaseStrip_draws (h : Nat) (st : Strip) : (s.releaseStrip h st).draws = s.draws := rfl

@[simp] theorem State.install_config (h : Nat) (st : Strip) : (s.install h st).config = s.config := rfl
@[simp] theorem State.install_slots (h : Nat) (st : Strip) : (s.install h st).slots = s.slots.set h (some st) := rfl
@[simp] theorem State.install_wires (h : Nat) (st : Strip) : (s.install h st).wires = s.wires := rfl
@[simp] theorem State.install_poolFree (h : Nat) (st : Strip) : (s.install h st).poolFree = s.poolFree - st.fbLen := rfl
@[simp] theorem State.install_issuer (h : Nat) (st : Strip) : (s.install h st).issuer = s.issuer := rfl
@[simp] theorem State.install_schedule (h : Nat) (st : Strip) : (s.install h st).schedule = s.schedule := rfl
@[simp] theorem State.install_draws (h : Nat) (st : Strip) : (s.install h st).draws = s.draws := rfl

end Fields

section TakeMove

variable (s : State)

@[simp] theorem State.takeMove_config : s.takeMove.config = s.config := by
  unfold State.takeMove; split <;> rfl
@[simp] theorem State.takeMove_slots : s.takeMove.slots = s.slots := by
  unfold State.takeMove; split <;> rfl
@[simp] theorem State.takeMove_wires : s.takeMove.wires = s.wires := by
  unfold State.takeMove; split <;> rfl
@[simp] theorem State.takeMove_poolFree : s.takeMove.poolFree = s.poolFree := by
  unfold State.takeMove; split <;> rfl
@[simp] theorem State.takeMove_tasks : s.takeMove.tasks = s.tasks := by
  unfold State.takeMove; split <;> rfl
@[simp] theorem State.takeMove_issuer : s.takeMove.issuer = s.issuer := by
  unfold State.takeMove; split <;> rfl

end TakeMove

/-! ### Slots -/

theorem State.stripAt_eq_some {s : State} {h : Nat} {st : Strip} :
    s.stripAt h = some st ↔ s.slots[h]? = some (some st) := by
  unfold State.stripAt
  cases s.slots[h]? <;> simp

theorem State.stripAt_of_lt {s : State} {h : Nat} (hl : h < s.slots.length) :
    s.stripAt h = s.slots[h] := by
  rw [State.stripAt, List.getElem?_eq_getElem hl, Option.join_some]

theorem State.stripAt_lt {s : State} {h : Nat} {st : Strip} (hs : s.stripAt h = some st) :
    h < s.slots.length := by
  rw [State.stripAt_eq_some] at hs
  exact (List.getElem?_eq_some_iff.mp hs).1

/-- The strip at a handle depends on the slots alone. -/
theorem State.stripAt_congr {s t : State} (h : t.slots = s.slots) (k : Nat) :
    t.stripAt k = s.stripAt k := by simp [State.stripAt, h]

theorem State.liveStrips_congr {s t : State} (h : t.slots = s.slots) :
    t.liveStrips = s.liveStrips := by simp [State.liveStrips, h]

@[simp] theorem State.takeMove_stripAt (s : State) (k : Nat) : s.takeMove.stripAt k = s.stripAt k :=
  State.stripAt_congr s.takeMove_slots k
@[simp] theorem State.respond_stripAt (s : State) (t : Nat) (w : ResponseWord) (k : Nat) :
    (s.respond t w).stripAt k = s.stripAt k := rfl
@[simp] theorem State.answer_stripAt (s : State) (code : ResultCode) (k : Nat) :
    (s.answer code).stripAt k = s.stripAt k := rfl
@[simp] theorem State.answerHandle_stripAt (s : State) (h k : Nat) :
    (s.answerHandle h).stripAt k = s.stripAt k := rfl
@[simp] theorem State.setWait_stripAt (s : State) (t : Nat) (w : Option Waiting) (k : Nat) :
    (s.setWait t w).stripAt k = s.stripAt k := rfl
@[simp] theorem State.endWait_stripAt (s : State) (t : Nat) (code : ResultCode) (k : Nat) :
    (s.endWait t code).stripAt k = s.stripAt k := rfl
@[simp] theorem State.wireEmit_stripAt (s : State) (g : Nat) (seg : Segment) (k : Nat) :
    (s.wireEmit g seg).stripAt k = s.stripAt k := rfl

theorem State.setStrip_stripAt {s : State} {h : Nat} (hl : h < s.slots.length) (st : Strip) (k : Nat) :
    (s.setStrip h st).stripAt k = if k = h then some st else s.stripAt k := by
  unfold State.stripAt
  rw [State.setStrip_slots, List.getElem?_set]
  by_cases hk : k = h
  · subst hk; simp [hl]
  · have : h ≠ k := fun e => hk e.symm
    simp [hk, this]

theorem State.clearSlot_stripAt (s : State) (h k : Nat) :
    (s.clearSlot h).stripAt k = if k = h then none else s.stripAt k := by
  unfold State.stripAt
  rw [State.clearSlot_slots, List.getElem?_set]
  by_cases hk : k = h
  · subst hk; by_cases hl : k < s.slots.length <;> simp [hl]
  · have : h ≠ k := fun e => hk e.symm
    simp [hk, this]

theorem State.releaseStrip_stripAt (s : State) (h : Nat) (st : Strip) (k : Nat) :
    (s.releaseStrip h st).stripAt k = if k = h then none else s.stripAt k :=
  s.clearSlot_stripAt h k

theorem State.mem_liveStrips {s : State} {st : Strip} :
    st ∈ s.liveStrips ↔ ∃ h, s.stripAt h = some st := by
  rw [State.liveStrips, List.mem_filterMap]
  simp only [State.stripAt_eq_some, ← List.mem_iff_getElem?]
  exact ⟨fun ⟨o, ho, e⟩ => by cases o <;> simp_all, fun h => ⟨some st, h, rfl⟩⟩

/-! ### The Live strips as a list, under a change of one slot -/

theorem filterMap_id_set_split {α : Type} (l : List (Option α)) (h : Nat) (hl : h < l.length)
    (o : Option α) :
    (l.set h o).filterMap id = (l.take h).filterMap id ++ o.toList ++ (l.drop (h + 1)).filterMap id := by
  rw [List.set_eq_take_append_cons_drop, if_pos hl, List.filterMap_append]
  cases o <;> simp

theorem filterMap_id_split {α : Type} (l : List (Option α)) (h : Nat) (hl : h < l.length) :
    l.filterMap id = (l.take h).filterMap id ++ l[h].toList ++ (l.drop (h + 1)).filterMap id := by
  have := filterMap_id_set_split l h hl l[h]
  rwa [List.set_getElem_self] at this

/-- The Live strips around slot `h`: those before it, what slot `h` holds, those after it. -/
theorem State.liveStrips_split {s : State} {h : Nat} (hl : h < s.slots.length) :
    ∃ before after : List Strip,
      s.liveStrips = before ++ (s.stripAt h).toList ++ after ∧
      (∀ st, (s.setStrip h st).liveStrips = before ++ [st] ++ after) ∧
      (s.clearSlot h).liveStrips = before ++ after := by
  refine ⟨(s.slots.take h).filterMap id, (s.slots.drop (h + 1)).filterMap id, ?_, fun st => ?_, ?_⟩
  · rw [State.liveStrips, filterMap_id_split s.slots h hl]
    rw [State.stripAt_of_lt hl]
  · rw [State.liveStrips, State.setStrip_slots, filterMap_id_set_split s.slots h hl]; rfl
  · rw [State.liveStrips, State.clearSlot_slots, filterMap_id_set_split s.slots h hl]; simp

/-! ### Tasks -/

theorem State.respond_tasks (s : State) (t : Nat) (w : ResponseWord) :
    (s.respond t w).tasks =
      s.tasks.modify t fun task => { task with responses := task.responses ++ [w] } := rfl

theorem State.setWait_tasks (s : State) (t : Nat) (w : Option Waiting) :
    (s.setWait t w).tasks = s.tasks.modify t fun task => { task with wait := w } := rfl

theorem State.answer_eq_respond (s : State) (code : ResultCode) :
    s.answer code = s.respond s.issuer (responseWord code 0) := rfl

theorem State.answerHandle_eq_respond (s : State) (h : Nat) :
    s.answerHandle h = s.respond s.issuer (responseWord .ok h) := rfl

@[simp] theorem State.respond_waitOf (s : State) (t : Nat) (w : ResponseWord) (k : Nat) :
    (s.respond t w).waitOf k = s.waitOf k := by
  simp only [State.waitOf, State.respond_tasks, List.getElem?_modify]
  cases s.tasks[k]? with
  | none => rfl
  | some task => by_cases h : t = k <;> simp [h]

theorem State.setWait_waitOf {s : State} {t : Nat} (ht : t < s.tasks.length) (w : Option Waiting) (k : Nat) :
    (s.setWait t w).waitOf k = if k = t then w else s.waitOf k := by
  simp only [State.waitOf, State.setWait_tasks, List.getElem?_modify]
  by_cases h : k = t
  · subst h; simp [ht]
  · have : t ≠ k := fun e => h e.symm
    cases s.tasks[k]? <;> simp [h, this]

theorem State.respond_getElem_ne {s : State} {t k : Nat} (h : k ≠ t) (w : ResponseWord) :
    (s.respond t w).tasks[k]? = s.tasks[k]? := by
  have : t ≠ k := fun e => h e.symm
  simp only [State.respond_tasks, List.getElem?_modify]
  cases s.tasks[k]? <;> simp [this]

/-! ### Wires -/

@[simp] theorem State.setStrip_wire (s : State) (h : Nat) (st : Strip) (g : Nat) :
    (s.setStrip h st).wire g = s.wire g := rfl
@[simp] theorem State.respond_wire (s : State) (t : Nat) (w : ResponseWord) (g : Nat) :
    (s.respond t w).wire g = s.wire g := rfl
@[simp] theorem State.takeMove_wire (s : State) (g : Nat) : s.takeMove.wire g = s.wire g := by
  simp [State.wire]

theorem State.wire_congr {s t : State} (h : t.wires = s.wires) (g : Nat) : t.wire g = s.wire g := by
  simp [State.wire, h]

theorem State.wireEmit_wire {s : State} (hw : CellsWf Wire.silent s.wires) (g : Nat) (seg : Segment)
    (k : Nat) : (s.wireEmit g seg).wire k = if k = g then (s.wire g).emit seg else s.wire k :=
  cellRead_cellWrite hw.1 g _ k

theorem State.wireEmit_wf {s : State} (hw : CellsWf Wire.silent s.wires) (g : Nat) (seg : Segment) :
    CellsWf Wire.silent (s.wireEmit g seg).wires := cellsWf_cellWrite hw g _

/-- Both segments of a descriptor on pin `g`: they are appended to its trace, and no other wire
changes. -/
theorem State.wireEmitAll_wire {s : State} (hw : CellsWf Wire.silent s.wires) (g hz : Nat)
    (d : Descriptor) (k : Nat) :
    (s.wireEmitAll g (d.segments hz)).wire k =
      if k = g then ⟨(s.wire g).trace ++ d.segments hz, d.levelB⟩ else s.wire k := by
  simp only [State.wireEmitAll, Descriptor.segments, List.foldl_cons, List.foldl_nil]
  rw [State.wireEmit_wire (State.wireEmit_wf hw _ _), State.wireEmit_wire hw, State.wireEmit_wire hw]
  by_cases h : k = g <;> simp [h, Wire.emit]

theorem State.wireEmitAll_wf {s : State} (hw : CellsWf Wire.silent s.wires) (g : Nat)
    (segs : List Segment) : CellsWf Wire.silent (s.wireEmitAll g segs).wires := by
  induction segs generalizing s with
  | nil => exact hw
  | cons seg segs ih => exact ih (State.wireEmit_wf hw g seg)

section WireEmitAll

variable (s : State) (g hz : Nat) (d : Descriptor)

@[simp] theorem State.wireEmitAll_config : (s.wireEmitAll g (d.segments hz)).config = s.config := rfl
@[simp] theorem State.wireEmitAll_slots : (s.wireEmitAll g (d.segments hz)).slots = s.slots := rfl
@[simp] theorem State.wireEmitAll_poolFree : (s.wireEmitAll g (d.segments hz)).poolFree = s.poolFree := rfl
@[simp] theorem State.wireEmitAll_tasks : (s.wireEmitAll g (d.segments hz)).tasks = s.tasks := rfl
@[simp] theorem State.wireEmitAll_issuer : (s.wireEmitAll g (d.segments hz)).issuer = s.issuer := rfl
@[simp] theorem State.wireEmitAll_schedule : (s.wireEmitAll g (d.segments hz)).schedule = s.schedule := rfl
@[simp] theorem State.wireEmitAll_draws : (s.wireEmitAll g (d.segments hz)).draws = s.draws := rfl

end WireEmitAll

end Sys2Proof.Machine
end

