-- ==== Sys2Proof/Laws/Ops.lean ====
section
/-! SUPPORT. What each shared operation can do, said once: the boundary calls, the encoder's chunk, and the
effect of a command or a move that answers a next state. -/

namespace Sys2Proof.Machine

/-! ### Boundary calls -/

theorem Strip.transmit_eq_some {n : Nat} {st st' : Strip} :
    st.transmit n = some st' ↔
      st.enabled = true ∧ st.occupancy ≠ n ∧ st' = { st with pending := st.pending + 1 } := by
  unfold Strip.transmit
  split
  · simp_all
  · next h1 =>
    split
    · simp_all
    · next h2 =>
      rw [Option.some.injEq]
      exact ⟨fun e => ⟨by simpa using h1, h2, e.symm⟩, fun e => e.2.2.symm⟩

theorem Strip.transmit_eq_none {n : Nat} {st : Strip} :
    st.transmit n = none ↔ st.enabled = false ∨ st.occupancy = n := by
  unfold Strip.transmit
  split
  · simp_all
  · split <;> simp_all

theorem Strip.enableStage_eq_some {st st' : Strip} :
    st.enableStage = some st' ↔ st.enabled = false ∧ st' = { st with enabled := true } := by
  unfold Strip.enableStage
  split
  · simp_all
  · next h1 =>
    rw [Option.some.injEq]
    exact ⟨fun e => ⟨by simpa using h1, e.symm⟩, fun e => e.2.symm⟩

theorem Strip.disableStage_eq_some {st st' : Strip} :
    st.disableStage = some st' ↔
      st.enabled = true ∧ st.occupancy = 0 ∧ st' = { st with enabled := false } := by
  unfold Strip.disableStage
  split
  · simp_all
  · next h1 =>
    split
    · simp_all; omega
    · next h2 =>
      rw [Option.some.injEq]
      exact ⟨fun e => ⟨by simpa using h1, by omega, e.symm⟩, fun e => e.2.2.symm⟩

theorem State.freeSlot_eq_some {s : State} {h : Nat} :
    s.freeSlot = some h ↔
      h < s.slots.length ∧ s.stripAt h = none ∧ ∀ k < h, (s.stripAt k).isSome = true := by
  unfold State.freeSlot
  rw [List.findIdx?_eq_some_iff_getElem]
  constructor
  · rintro ⟨hl, hn, hk⟩
    refine ⟨hl, ?_, fun k hkh => ?_⟩
    · rw [State.stripAt_of_lt hl]; exact Option.isNone_iff_eq_none.mp hn
    · rw [State.stripAt_of_lt (by omega)]
      simpa [Option.isNone_iff_eq_none, Option.isSome_iff_ne_none] using hk k hkh
  · rintro ⟨hl, hn, hk⟩
    refine ⟨hl, ?_, fun k hkh => ?_⟩
    · rw [State.stripAt_of_lt hl] at hn; exact Option.isNone_iff_eq_none.mpr hn
    · have := hk k hkh
      rw [State.stripAt_of_lt (by omega)] at this
      simpa [Option.isNone_iff_eq_none, Option.isSome_iff_ne_none] using this

theorem State.freeSlot_eq_none {s : State} :
    s.freeSlot = none ↔ ∀ k < s.slots.length, (s.stripAt k).isSome = true := by
  unfold State.freeSlot
  rw [List.findIdx?_eq_none_iff]
  constructor
  · intro h k hk
    rw [State.stripAt_of_lt hk]
    have := h s.slots[k] (List.getElem_mem hk)
    rwa [Option.isNone_eq_false_iff] at this
  · intro h o ho
    obtain ⟨k, hk, rfl⟩ := List.mem_iff_getElem.mp ho
    have := h k hk
    rw [State.stripAt_of_lt hk] at this
    rwa [Option.isNone_eq_false_iff]

theorem State.acquireChannel_eq_some {s : State} {hz h : Nat} {p : Profile} :
    s.acquireChannel hz = some (h, p) ↔
      s.freeSlot = some h ∧ p = Profile.ofResolution s.config hz ∧ p.Realisable s.config.durMax := by
  unfold State.acquireChannel
  split
  · simp_all
  · split
    · simp only [Option.some.injEq, Prod.mk.injEq]
      constructor
      · rintro ⟨rfl, rfl⟩; exact ⟨by simp_all, rfl, by assumption⟩
      · rintro ⟨h1, rfl, -⟩; simp_all
    · simp only [reduceCtorEq, false_iff]
      rintro ⟨-, rfl, h⟩
      contradiction

theorem State.acquireChannel_eq_none {s : State} {hz : Nat} :
    s.acquireChannel hz = none ↔
      s.freeSlot = none ∨ ¬ (Profile.ofResolution s.config hz).Realisable s.config.durMax := by
  unfold State.acquireChannel
  split
  · simp_all
  · split <;> simp_all

theorem State.pinInUse_eq_false {s : State} {g : Nat} :
    s.pinInUse g = false ↔ ∀ st ∈ s.liveStrips, st.gpio ≠ g := by
  simp [State.pinInUse]

theorem State.waitedOn_eq_false {s : State} {h : Nat} :
    s.waitedOn h = false ↔ ∀ task ∈ s.tasks, ∀ w ∈ task.wait, w.h ≠ h := by
  simp only [State.waitedOn, List.any_eq_false]
  constructor
  · intro hh task ht w hw e
    have := hh task ht
    rw [Option.mem_def] at hw
    simp_all
  · intro hh task ht
    cases hw : task.wait with
    | none => simp
    | some w => have := hh task ht w hw; simpa using this

/-! ### The encoder's steps -/

theorem Strip.chunk_le (mem : Nat) (st : Strip) : st.chunk mem ≤ st.fbLen - st.enc.cursor :=
  Nat.min_le_left _ _

theorem Strip.chunk_symbols (mem : Nat) (st : Strip) : 8 * st.chunk mem ≤ st.symFree mem := by
  have : st.chunk mem ≤ st.symFree mem / 8 := Nat.min_le_right _ _
  omega

/-- The bytes an ENC_STEP in EncodingData encodes. -/
def Strip.chunkBytes (mem : Nat) (st : Strip) : List Byte :=
  (List.range' st.enc.cursor (st.chunk mem)).map (Memory.read st.fb)

/-- ENC_STEP in EncodingData never leaves the buffer (R52, R98). -/
theorem Strip.encStepData_eq (mem : Nat) (st : Strip) :
    st.encStepData mem = .ok { st with
      symmem := st.symmem ++ encodeBytes st.profile (st.chunkBytes mem)
      enc := ⟨dataStateAt (st.enc.cursor + st.chunk mem) st.fbLen, st.enc.cursor + st.chunk mem⟩ } := by
  have : st.fbLoad st.enc.cursor (st.chunk mem) = .ok (st.chunkBytes mem) := by
    by_cases h : st.enc.cursor ≤ st.fbLen
    · exact st.fbLoad_ok _ _ (by have := st.chunk_le mem; omega)
    · have h0 : st.chunk mem = 0 := by have := st.chunk_le mem; omega
      simp [h0, Strip.chunkBytes, Strip.fbLoad]
  simp only [Strip.encStepData, this, Strip.symPush]

/-- The effect of an ENC_STEP, without its status. -/
def Strip.encNext (mem : Nat) (st : Strip) : Strip :=
  match st.enc.state with
  | .encodingData => { st with
      symmem := st.symmem ++ encodeBytes st.profile (st.chunkBytes mem)
      enc := ⟨dataStateAt (st.enc.cursor + st.chunk mem) st.fbLen, st.enc.cursor + st.chunk mem⟩ }
  | .encodingReset => st.encStepReset
  | .complete => st

/-- ENC_STEP never stops, and returns the status of the state it leaves the encoder in (R29, R98, R99). -/
theorem Strip.encStep_status (mem : Nat) (st : Strip) :
    st.encStep mem = .ok (st.encNext mem, (st.encNext mem).enc.state.status) := by
  cases hs : st.enc.state <;>
    simp only [Strip.encStep, Strip.encNext, hs, Strip.encStepData_eq] <;> rfl

theorem Strip.encStep_eq (mem : Nat) (st : Strip) :
    ∃ status, st.encStep mem = .ok (st.encNext mem, status) := ⟨_, st.encStep_status mem⟩

/-! ### Commands and moves by their effect -/

/-- What a command that keeps its strip and answers Ok does to it. -/
inductive StripCommand (c : Config) (st : Strip) : Instr → Strip → Prop
  | setPixel (h index : Nat) (sample : Sample) (st' : Strip) (hi : index < st.ledCount)
      (hs : st.fbStore (offset index st.channels) (sampleBytes st.format sample) = .ok st') :
      StripCommand c st (.setPixel h index sample) st'
  | clear (h : Nat) : StripCommand c st (.clear h) { st with fb := [] }
  | refresh (h : Nat) (st' : Strip) (ht : st.transmit c.queueDepth = some st') :
      StripCommand c st (.refresh h) st'
  | enable (h : Nat) (st' : Strip) (he : st.enableStage = some st') : StripCommand c st (.enable h) st'
  | disable (h : Nat) (st' : Strip) (hd : st.disableStage = some st') :
      StripCommand c st (.disable h) st'

/-- What a command that answers a next state does (41_strip_ops.md). -/
inductive CommandEffect (s : State) : Instr → State → Prop
  | failed (i : Instr) (code : ResultCode) (hc : code ≠ .ok) : CommandEffect s i (s.answer code)
  | created (format : ChannelFormat) (gpio n hz h : Nat) (p : Profile) (hn : n ≠ 0)
      (hneed : frameBytes format n ≤ s.poolFree) (hch : s.acquireChannel hz = some (h, p))
      (hpin : s.pinInUse gpio = false) :
      CommandEffect s (.create format gpio n hz) (s.install h (Strip.created format gpio n hz p))
  | strip (i : Instr) (h : Nat) (st st' : Strip) (hh : handleOf i = some h) (hs : s.stripAt h = some st)
      (hc : StripCommand s.config st i st') : CommandEffect s i ((s.setStrip h st').answer .ok)
  | waits (h timeoutMs : Nat) (st st' : Strip) (hs : s.stripAt h = some st)
      (ht : st.transmit s.config.queueDepth = some st') :
      CommandEffect s (.refreshWait h timeoutMs)
        ((s.setStrip h st').setWait s.issuer (some ⟨h, timeoutMs⟩))
  | destroyed (h : Nat) (st : Strip) (hs : s.stripAt h = some st) (hocc : st.occupancy = 0)
      (hw : s.waitedOn h = false) :
      CommandEffect s (.destroy h) ((s.releaseStrip h st).answer .ok)

theorem onStrip_next {r : Refusal} {h : Nat} {s t : State}
    {k : Strip → Host.Outcome State Fault Refusal} (e : onStrip r h s k = .next t) :
    ∃ st, s.stripAt h = some st ∧ k st = .next t := by
  unfold onStrip at e
  split at e
  · cases e
  · next st hs => exact ⟨st, hs, e⟩

@[simp] theorem onStrip_live {r : Refusal} {h : Nat} {s : State} {st : Strip}
    (hs : s.stripAt h = some st) (k : Strip → Host.Outcome State Fault Refusal) :
    onStrip r h s k = k st := by
  simp [onStrip, hs]

@[simp] theorem onStrip_dead {r : Refusal} {h : Nat} {s : State} (hs : s.stripAt h = none)
    (k : Strip → Host.Outcome State Fault Refusal) : onStrip r h s k = .refused r := by
  simp [onStrip, hs]

/-- Everything a command that answers a next state can do. -/
theorem exec_cases {i : Instr} {s t : State} (e : exec i s = .next t) : CommandEffect s i t := by
  cases i with
  | create format gpio n hz =>
    simp only [exec, execCreate] at e
    split at e
    · cases e; exact .failed _ _ (by decide)
    · next hn =>
      split at e
      · cases e; exact .failed _ _ (by decide)
      · next hneed =>
        split at e
        · cases e; exact .failed _ _ (by decide)
        · next h p hch =>
          split at e
          · cases e
          · next hpin => cases e; exact .created format gpio n hz h p hn (by omega) hch (by simpa using hpin)
  | setPixel h index sample =>
    obtain ⟨st, hs, e⟩ := onStrip_next e
    split at e
    · cases e; exact .failed _ _ (by decide)
    · next hi =>
      split at e
      · cases e
      · next st' hst => cases e; exact .strip _ h st st' rfl hs (.setPixel h index sample st' (by omega) hst)
  | clear h =>
    obtain ⟨st, hs, e⟩ := onStrip_next e
    cases e; exact .strip _ h st _ rfl hs (.clear h)
  | refresh h =>
    obtain ⟨st, hs, e⟩ := onStrip_next e
    split at e
    · cases e; exact .failed _ _ (by decide)
    · next st' ht => cases e; exact .strip _ h st st' rfl hs (.refresh h st' ht)
  | refreshWait h timeoutMs =>
    obtain ⟨st, hs, e⟩ := onStrip_next e
    split at e
    · cases e; exact .failed _ _ (by decide)
    · next st' ht => cases e; exact .waits h timeoutMs st st' hs ht
  | enable h =>
    obtain ⟨st, hs, e⟩ := onStrip_next e
    split at e
    · cases e; exact .failed _ _ (by decide)
    · next st' ht => cases e; exact .strip _ h st st' rfl hs (.enable h st' ht)
  | disable h =>
    obtain ⟨st, hs, e⟩ := onStrip_next e
    split at e
    · cases e; exact .failed _ _ (by decide)
    · next st' ht => cases e; exact .strip _ h st st' rfl hs (.disable h st' ht)
  | destroy h =>
    obtain ⟨st, hs, e⟩ := onStrip_next e
    split at e
    · cases e
    · next hw =>
      split at e
      · cases e; exact .failed _ _ (by decide)
      · next hocc => cases e; exact .destroyed h st hs (by omega) (by simpa using hw)

theorem Strip.symPop_eq_some {st st' : Strip} {d : Descriptor} :
    st.symPop = some (d, st') ↔
      ∃ rest, st.active = true ∧ st.symmem = d :: rest ∧ st' = { st with symmem := rest } := by
  unfold Strip.symPop
  split
  · next a b rest ha hq =>
    rw [ha, hq]
    simp only [Option.some.injEq, Prod.mk.injEq, true_and, List.cons.injEq]
    constructor
    · rintro ⟨rfl, rfl⟩; exact ⟨rest, ⟨rfl, rfl⟩, rfl⟩
    · rintro ⟨r, ⟨rfl, rfl⟩, rfl⟩; exact ⟨rfl, rfl⟩
  · next h =>
    simp only [reduceCtorEq, false_iff]
    rintro ⟨rest, ha, hq, -⟩
    exact h d rest ha hq

/-- What a move that answers a next state does. -/
inductive MoveEffect (s : State) : Move → State → Prop
  | idle (m : Move) : MoveEffect s m s
  | illegal (t : Nat) (w : CommandWord) (ht : t < s.tasks.length) (hw : s.waitOf t = none)
      (e : DecodeError) (hd : decodeWord w = .error e) :
      MoveEffect s (.issue t w) ({ s with issuer := t }.answer .illegalCommand)
  | command (t : Nat) (w : CommandWord) (ht : t < s.tasks.length) (hw : s.waitOf t = none) (i : Instr)
      (hd : decodeWord w = .ok i) (u : State) (hx : exec i { s with issuer := t } = .next u) :
      MoveEffect s (.issue t w) u
  | waitComplete (t : Nat) (w : Waiting) (st : Strip) (hw : s.waitOf t = some w)
      (hs : s.stripAt w.h = some st) (ho : st.occupancy = 0) :
      MoveEffect s (.waitComplete t) (s.endWait t .ok)
  | waitTimeout (t : Nat) (w : Waiting) (st : Strip) (hw : s.waitOf t = some w)
      (hs : s.stripAt w.h = some st) (ho : 0 < st.occupancy) :
      MoveEffect s (.waitTimeout t) (s.endWait t .timeoutError)
  | txStart (h : Nat) (st : Strip) (hs : s.stripAt h = some st) (he : st.txStartEnabled = true) :
      MoveEffect s (.txStart h) (s.setStrip h st.txStart)
  | enc (h : Nat) (st : Strip) (hs : s.stripAt h = some st)
      (he : st.encEnabled s.config.memSymbols = true) :
      MoveEffect s (.encStep h) (s.setStrip h (st.encNext s.config.memSymbols))
  | seq (h : Nat) (st : Strip) (d : Descriptor) (rest : List Descriptor) (hs : s.stripAt h = some st)
      (ha : st.active = true) (hq : st.symmem = d :: rest) :
      MoveEffect s (.seqStep h)
        ((s.setStrip h { st with symmem := rest }).wireEmitAll st.gpio (d.segments st.resolutionHz))
  | txDone (h : Nat) (st : Strip) (hs : s.stripAt h = some st) (he : st.txDoneEnabled = true) :
      MoveEffect s (.txDone h) (s.setStrip h st.txDone)

/-- Everything a move that answers a next state can do. -/
theorem runMove_cases {m : Move} {s t : State} (e : runMove m s = .next t) : MoveEffect s m t := by
  cases m with
  | issue k w =>
    simp only [runMove, issueWord] at e
    split at e
    · cases e; exact .idle _
    · next task hk =>
      have hlt := (List.getElem?_eq_some_iff.mp hk).1
      split at e
      · cases e; exact .idle _
      · next hw =>
        have hw' : s.waitOf k = none := by simp [State.waitOf, hk, hw]
        split at e
        · next er hd => cases e; exact .illegal k w hlt hw' er hd
        · next i hd => exact .command k w hlt hw' i hd t e
  | waitComplete k =>
    simp only [runMove, stepWaitComplete] at e
    split at e
    · cases e; exact .idle _
    · next w hw =>
      split at e
      · cases e
      · next st hs =>
        split at e
        · next ho => cases e; exact .waitComplete k w st hw hs ho
        · cases e; exact .idle _
  | waitTimeout k =>
    simp only [runMove, stepWaitTimeout] at e
    split at e
    · cases e; exact .idle _
    · next w hw =>
      split at e
      · cases e
      · next st hs =>
        split at e
        · next ho => cases e; exact .waitTimeout k w st hw hs ho
        · cases e; exact .idle _
  | txStart h =>
    simp only [runMove, stepTxStart] at e
    split at e
    · cases e; exact .idle _
    · next st hs =>
      split at e
      · next he => cases e; exact .txStart h st hs he
      · cases e; exact .idle _
  | encStep h =>
    simp only [runMove, stepEnc] at e
    split at e
    · cases e; exact .idle _
    · next st hs =>
      split at e
      · next he =>
        obtain ⟨status, hst⟩ := st.encStep_eq s.config.memSymbols
        rw [hst] at e
        cases e; exact .enc h st hs he
      · cases e; exact .idle _
  | seqStep h =>
    simp only [runMove, stepSeq] at e
    split at e
    · cases e; exact .idle _
    · next st hs =>
      split at e
      · cases e; exact .idle _
      · next d st' hp =>
        obtain ⟨rest, ha, hq, rfl⟩ := Strip.symPop_eq_some.mp hp
        cases e; exact .seq h st d rest hs ha hq
  | txDone h =>
    simp only [runMove, stepTxDone] at e
    split at e
    · cases e; exact .idle _
    · next st hs =>
      split at e
      · next he => cases e; exact .txDone h st hs he
      · cases e; exact .idle _

/-- A step is its move, made in the state whose input is taken. -/
theorem step_cases {s t : State} (e : step s = .next t) : MoveEffect s.takeMove s.nextMove t :=
  runMove_cases e

end Sys2Proof.Machine
end

