-- ==== Sys2Proof/Laws/Claims.lean ====
section
/-! SUPPORT. The vocabulary of claims (Safety.lean) over the shared operations: what an answer does to the tasks,
what a change of one slot leaves. -/

namespace Sys2Proof.Machine

/-- A new strip is in its slot, and the other slots are as they were. -/
theorem State.install_stripAt {s : State} {h : Nat} (hl : h < s.slots.length) (st : Strip) (k : Nat) :
    (s.install h st).stripAt k = if k = h then some st else s.stripAt k :=
  State.setStrip_stripAt (s := { s with poolFree := s.poolFree - st.fbLen }) hl st k

theorem sampleBytes_length (format : ChannelFormat) (s : Sample) :
    (sampleBytes format s).length = channelsOf format := by
  cases format <;> rfl

/-- A response is appended to what its task has received, and to nothing else. -/
theorem State.respond_responsesOf {s : State} {t : Nat} (ht : t < s.tasks.length) (w : ResponseWord) (k : Nat) :
    (s.respond t w).responsesOf k = if k = t then s.responsesOf k ++ [w] else s.responsesOf k := by
  unfold State.responsesOf
  rw [State.respond_tasks, List.getElem?_modify]
  by_cases h : k = t
  · subst h
    simp [List.getElem?_eq_getElem ht]
  · have : t ≠ k := fun e => h e.symm
    simp only [h, this, if_false]
    cases s.tasks[k]? <;> rfl

/-- An answer to the executing task, whatever else became of the slots, wires and pool. -/
theorem answers_respond {s u : State} {w : ResponseWord} (ht : s.issuer < s.tasks.length)
    (hu : u.tasks = s.tasks) : Answers w s (u.respond s.issuer w) where
  responses := by
    have : u.responsesOf s.issuer = s.responsesOf s.issuer := by simp [State.responsesOf, hu]
    rw [State.respond_responsesOf (by rw [hu]; exact ht), if_pos rfl, this]
  other_tasks k hk := by rw [State.respond_getElem_ne hk, hu]
  waits k := by rw [State.respond_waitOf]; simp [State.waitOf, hu]

/-- A command that only answers an error fails with it. -/
theorem fails_answer {s : State} {i : Instr} {code : ResultCode} (ht : s.issuer < s.tasks.length)
    (e : exec i s = .next (s.answer code)) : FailsWith code i s :=
  ⟨_, e, rfl, answers_respond ht rfl⟩

/-- A change of slot `h` leaves the other slots. -/
theorem otherSlots_setStrip {s u : State} {h : Nat} {st st' : Strip} (hs : s.stripAt h = some st)
    (hu : u.slots = (s.setStrip h st').slots) : OtherSlotsSame h s u where
  length := by rw [hu]; simp
  same k hk := by rw [State.stripAt_congr hu, State.setStrip_stripAt (State.stripAt_lt hs), if_neg hk]

/-- A strip put into slot `h` is there. -/
theorem setStrip_at {s u : State} {h : Nat} {st st' : Strip} (hs : s.stripAt h = some st)
    (hu : u.slots = (s.setStrip h st').slots) : u.stripAt h = some st' := by
  rw [State.stripAt_congr hu, State.setStrip_stripAt (State.stripAt_lt hs), if_pos rfl]

/-- A command that changes its strip and answers Ok, as a claim about it. -/
theorem strip_command {i : Instr} {s : State} {h : Nat} {st st' : Strip}
    (ht : s.issuer < s.tasks.length) (hs : s.stripAt h = some st)
    (e : exec i s = .next ((s.setStrip h st').answer .ok)) :
    ∃ t, exec i s = .next t ∧ t.stripAt h = some st' ∧ OtherSlotsSame h s t ∧
      t = { s with slots := t.slots, tasks := t.tasks } ∧ Answers (responseWord .ok 0) s t :=
  ⟨_, e, setStrip_at hs rfl, otherSlots_setStrip hs rfl, rfl, answers_respond ht rfl⟩

end Sys2Proof.Machine
end

