-- ==== Sys2Proof/Laws/Decode.lean ====
section
/-! SUPPORT. Words and fields: the fields of a packed word, a word as its fields, and what the decoder
gives is well formed. -/

namespace Sys2Proof

/-- The fields of a word put together from fields (R80). -/
theorem packFields_fields (op h c g a : Nat) (b : BitVec 32) :
    opField (packFields op h c g a b) = op % 256 ∧ hField (packFields op h c g a b) = h % 256 ∧
    cField (packFields op h c g a b) = c % 256 ∧ gField (packFields op h c g a b) = g % 256 ∧
    aField (packFields op h c g a b) = a % 4294967296 ∧ bField (packFields op h c g a b) = b.toNat := by
  simp (disch := decide) only [opField, hField, cField, gField, aField, bField, packFields,
    BitVec.extractLsb'_append_eq_of_add_le, BitVec.extractLsb'_append_eq_of_le,
    BitVec.extractLsb'_eq_self]
  simp

/-- The sample of a word that carries one (R83). -/
theorem packFields_sample (op h c g a : Nat) (s : Sample) :
    sampleField (packFields op h c g a (packSample s)) = s := by
  simp (disch := decide) only [sampleField, packFields, packSample,
    BitVec.extractLsb'_append_eq_of_add_le, BitVec.extractLsb'_append_eq_of_le,
    BitVec.extractLsb'_eq_self]
  simp [BitVec.extractLsb'_eq_self]

/-- A word is its six fields, one after the other (R80). -/
theorem word_eq_packFields (w : CommandWord) :
    w = packFields (opField w) (hField w) (cField w) (gField w) (aField w) (w.extractLsb' 0 32) := by
  simp only [packFields, opField, hField, cField, gField, aField, BitVec.ofNat_toNat, BitVec.setWidth_eq]
  rw [BitVec.extractLsb'_append_extractLsb'_eq_extractLsb' (by rfl),
    BitVec.extractLsb'_append_extractLsb'_eq_extractLsb' (by rfl),
    BitVec.extractLsb'_append_extractLsb'_eq_extractLsb' (by rfl),
    BitVec.extractLsb'_append_extractLsb'_eq_extractLsb' (by rfl),
    BitVec.extractLsb'_append_extractLsb'_eq_extractLsb' (by rfl)]
  exact BitVec.extractLsb'_eq_self.symm

/-- The sample of a word, put together again, is field `b` (R83). -/
theorem packSample_sampleField (w : CommandWord) : packSample (sampleField w) = w.extractLsb' 0 32 := by
  simp only [packSample, sampleField]
  rw [BitVec.extractLsb'_append_extractLsb'_eq_extractLsb' (by rfl),
    BitVec.extractLsb'_append_extractLsb'_eq_extractLsb' (by rfl),
    BitVec.extractLsb'_append_extractLsb'_eq_extractLsb' (by rfl)]

/-- The decoder gives well-formed commands only. -/
theorem decodeWord_wellFormed {w : CommandWord} {i : Instr} (h : decodeWord w = .ok i) :
    i.WellFormed := by
  have hh : Fits8 (hField w) := (w.extractLsb' 80 8).isLt
  have hg : Fits8 (gField w) := (w.extractLsb' 64 8).isLt
  have ha : Fits32 (aField w) := (w.extractLsb' 32 32).isLt
  have hb : Fits32 (bField w) := (w.extractLsb' 0 32).isLt
  simp only [decodeWord, unlessReserved] at h
  split at h <;> (try split at h) <;> cases h <;>
    simp only [Instr.WellFormed, Instr.wellFormed, decide_eq_true_eq] <;>
    (first | exact ⟨hh, ha⟩ | exact hh | exact ⟨hg, ha, hb⟩)

end Sys2Proof
end

