-- ==== Sys2Proof/Laws/Encoder.lean ====
section
/-! SUPPORT. The encoder: lengths and elements of its lists, and that ENC_STEP pushes exactly what it takes from
what is still to be encoded. -/

namespace Sys2Proof.Machine

@[simp] theorem encodeByte_length (p : Profile) (v : Byte) : (encodeByte p v).length = 8 := by
  simp [encodeByte]

theorem encodeByte_getElem (p : Profile) (v : Byte) {j : Nat} (hj : j < 8) :
    (encodeByte p v)[j]? = some (encodeBit p (v.getLsbD (7 - j))) := by
  simp [encodeByte, hj]

@[simp] theorem encodeBytes_nil (p : Profile) : encodeBytes p [] = [] := rfl

@[simp] theorem encodeBytes_cons (p : Profile) (b : Byte) (bs : List Byte) :
    encodeBytes p (b :: bs) = encodeByte p b ++ encodeBytes p bs := rfl

theorem encodeBytes_append (p : Profile) (bs cs : List Byte) :
    encodeBytes p (bs ++ cs) = encodeBytes p bs ++ encodeBytes p cs := by simp [encodeBytes]

@[simp] theorem encodeBytes_length (p : Profile) (bs : List Byte) :
    (encodeBytes p bs).length = 8 * bs.length := by
  induction bs with
  | nil => rfl
  | cons b bs ih => simp [ih]; omega

@[simp] theorem encodeFrame_nil (p : Profile) : encodeFrame p [] = [resetPulse p] := rfl

theorem encodeFrame_append (p : Profile) (bs cs : List Byte) :
    encodeFrame p (bs ++ cs) = encodeBytes p bs ++ encodeFrame p cs := by
  simp [encodeFrame, encodeBytes_append]

theorem isBit_encodeBit (p : Profile) (b : Bool) : IsBit p (encodeBit p b) := by
  cases b
  · exact .inl rfl
  · exact .inr rfl

theorem isBit_of_mem_encodeBytes {p : Profile} {bs : List Byte} {d : Descriptor}
    (h : d ∈ encodeBytes p bs) : IsBit p d := by
  simp only [encodeBytes, List.mem_flatMap, encodeByte, List.mem_map] at h
  obtain ⟨b, -, j, -, rfl⟩ := h
  exact isBit_encodeBit p _

/-- RESET is told from a bit by its first level, whatever the profiles (R78). -/
theorem resetPulse_ne_encodeBit (p q : Profile) (b : Bool) : resetPulse p ≠ encodeBit q b := by
  cases b <;> simp [resetPulse, encodeBit, zeroBit, oneBit]

@[simp] theorem Strip.fbBytes_length (st : Strip) : st.fbBytes.length = st.fbLen := by
  simp [Strip.fbBytes]

/-- The bytes of a chunk are the buffer's bytes from the cursor on. -/
theorem Strip.chunkBytes_eq (mem : Nat) (st : Strip) :
    st.chunkBytes mem = (st.fbBytes.drop st.enc.cursor).take (st.chunk mem) := by
  have h := st.chunk_le mem
  apply List.ext_getElem
  · simp [Strip.chunkBytes]; omega
  · intro i h1 h2
    simp [Strip.chunkBytes, Strip.fbBytes]

/-- ENC_STEP pushes exactly what it takes from what is still to be encoded (R98, R99). -/
theorem Strip.encNext_owed (mem : Nat) (st : Strip) :
    ∃ new, (st.encNext mem).symmem = st.symmem ++ new ∧
      st.toEncode = new ++ (st.encNext mem).toEncode := by
  unfold Strip.encNext
  split
  · next hs =>
    refine ⟨encodeBytes st.profile (st.chunkBytes mem), rfl, ?_⟩
    have hsplit : st.fbBytes.drop st.enc.cursor =
        st.chunkBytes mem ++ st.fbBytes.drop (st.enc.cursor + st.chunk mem) := by
      rw [st.chunkBytes_eq mem, ← List.drop_drop, List.take_append_drop]
    have hold : st.toEncode = encodeFrame st.profile (st.fbBytes.drop st.enc.cursor) := by
      simp [Strip.toEncode, hs]
    rw [hold, hsplit, encodeFrame_append]
    congr 1
    by_cases hc : st.enc.cursor + st.chunk mem = st.fbLen
    · simp only [Strip.toEncode, dataStateAt, if_pos hc]
      rw [List.drop_eq_nil_of_le (by rw [st.fbBytes_length, hc]), encodeFrame_nil]
    · simp only [Strip.toEncode, dataStateAt, if_neg hc]
      rfl
  · next hs => exact ⟨[resetPulse st.profile], rfl, by simp [Strip.toEncode, hs, Strip.encStepReset]⟩
  · next hs => exact ⟨[], by simp, by simp [Strip.toEncode, hs]⟩

section EncNext

variable (mem : Nat) (st : Strip)

@[simp] theorem Strip.encNext_ledCount : (st.encNext mem).ledCount = st.ledCount := by
  unfold Strip.encNext; split <;> rfl
@[simp] theorem Strip.encNext_format : (st.encNext mem).format = st.format := by
  unfold Strip.encNext; split <;> rfl
@[simp] theorem Strip.encNext_gpio : (st.encNext mem).gpio = st.gpio := by
  unfold Strip.encNext; split <;> rfl
@[simp] theorem Strip.encNext_resolutionHz : (st.encNext mem).resolutionHz = st.resolutionHz := by
  unfold Strip.encNext; split <;> rfl
@[simp] theorem Strip.encNext_profile : (st.encNext mem).profile = st.profile := by
  unfold Strip.encNext; split <;> rfl
@[simp] theorem Strip.encNext_fb : (st.encNext mem).fb = st.fb := by
  unfold Strip.encNext; split <;> rfl
@[simp] theorem Strip.encNext_enabled : (st.encNext mem).enabled = st.enabled := by
  unfold Strip.encNext; split <;> rfl
@[simp] theorem Strip.encNext_pending : (st.encNext mem).pending = st.pending := by
  unfold Strip.encNext; split <;> rfl
@[simp] theorem Strip.encNext_active : (st.encNext mem).active = st.active := by
  unfold Strip.encNext; split <;> rfl
@[simp] theorem Strip.encNext_fbLen : (st.encNext mem).fbLen = st.fbLen := by
  simp [Strip.fbLen, Strip.channels]

end EncNext

/-- When ENC_STEP is enabled, case by case (R98, R99, R100). -/
theorem Strip.encEnabled_iff {mem : Nat} {st : Strip} :
    st.encEnabled mem = true ↔ st.active = true ∧
      ((st.enc.state = .encodingData ∧ st.symmem.length + 8 ≤ mem) ∨
        (st.enc.state = .encodingReset ∧ st.symmem.length < mem)) := by
  unfold Strip.encEnabled Strip.symFree
  cases st.enc.state <;> simp <;> omega

/-- The segments of a list of descriptors, list by list. -/
theorem segmentsOf_append (hz : Nat) (ds es : List Descriptor) :
    segmentsOf hz (ds ++ es) = segmentsOf hz ds ++ segmentsOf hz es := by simp [segmentsOf]

@[simp] theorem segmentsOf_cons (hz : Nat) (d : Descriptor) (ds : List Descriptor) :
    segmentsOf hz (d :: ds) = d.segments hz ++ segmentsOf hz ds := rfl

@[simp] theorem segmentsOf_nil (hz : Nat) : segmentsOf hz [] = [] := rfl

@[simp] theorem ticksOf_nil : ticksOf [] = [] := rfl

@[simp] theorem ticksOf_cons (seg : Segment) (trace : List Segment) :
    ticksOf (seg :: trace) = List.replicate seg.ticks (seg.level, seg.resolutionHz) ++ ticksOf trace := rfl

end Sys2Proof.Machine
end

