-- ==== Sys2Proof/Laws/Invariant.lean ====
section
/-! SUPPORT. The invariant, piece by piece: each effect on one strip keeps `Strip.Ok`, and each update of the
state keeps `State.Inv`. -/

namespace Sys2Proof.Machine

/-! ### One strip -/

theorem Strip.fbLen_pos {c : Config} {st : Strip} (h : st.Ok c) : 0 < st.fbLen :=
  Nat.mul_pos h.ledCount_pos (by have := sampleLength_le st; omega)

theorem Strip.occupancy_eq_zero {st : Strip} : st.occupancy = 0 ↔ st.pending = 0 ∧ st.active = false := by
  unfold Strip.occupancy
  cases st.active <;> simp

/-- A strip as CREATE leaves it is good (R39, R110). -/
theorem Strip.Ok.created {c : Config} {format : ChannelFormat} {gpio n hz : Nat} {p : Profile}
    (hn : n ≠ 0) (hw : (Instr.create format gpio n hz).WellFormed) (hp : p = Profile.ofResolution c hz)
    (hr : p.Realisable c.durMax) : (Strip.created format gpio n hz p).Ok c := by
  simp only [Instr.WellFormed, Instr.wellFormed, decide_eq_true_eq] at hw
  exact
    { ledCount_pos := Nat.pos_of_ne_zero hn
      ledCount_fits := hw.2.1
      gpio_fits := hw.1
      resolution_fits := hw.2.2
      profile_eq := hp
      profile_fits := hr
      fb_wf := Memory.wf_nil
      fb_inside := fun _ h => by cases h
      cursor_ok := Nat.mul_pos (Nat.pos_of_ne_zero hn)
        (show 0 < channelsOf format by have := channelsOf_pos format; omega)
      occupancy_le := Nat.zero_le _
      symmem_le := Nat.zero_le _
      symmem_idle := fun _ => rfl
      enabled_of_busy := fun h => by simp [Strip.occupancy, Strip.created] at h
      symmem_ok := fun _ h => by cases h }

/-- A change of the frame buffer's contents alone keeps the strip good. -/
theorem Strip.Ok.with_fb {c : Config} {st : Strip} (h : st.Ok c) {m : Memory} (hw : Memory.wf m)
    (hb : ∀ cell ∈ m, cell.1 < st.fbLen) : ({ st with fb := m } : Strip).Ok c :=
  { h with fb_wf := hw, fb_inside := hb }

/-- One more transmission in the queue keeps the strip good (R116). -/
theorem Strip.Ok.transmit {c : Config} {st st' : Strip} (h : st.Ok c)
    (e : st.transmit c.queueDepth = some st') :
    st'.Ok c ∧ st'.gpio = st.gpio ∧ st'.fbLen = st.fbLen := by
  obtain ⟨he, ho, rfl⟩ := Strip.transmit_eq_some.mp e
  have := h.occupancy_le
  refine ⟨{ h with occupancy_le := ?_, enabled_of_busy := fun _ => he }, rfl, rfl⟩
  simp only [Strip.occupancy] at *; omega

/-- Every command that keeps its strip keeps it good, its pin and the size of its buffer. -/
theorem Strip.Ok.command {c : Config} {st st' : Strip} {i : Instr} (h : st.Ok c)
    (e : StripCommand c st i st') : st'.Ok c ∧ st'.gpio = st.gpio ∧ st'.fbLen = st.fbLen := by
  cases e with
  | setPixel k index sample _ hi hs =>
    obtain ⟨h1, h2, h3⟩ := Strip.fbStore_keeps hs
    rw [h1]
    exact ⟨h.with_fb (h2 h.fb_wf) (h3 h.fb_inside), rfl, rfl⟩
  | clear => exact ⟨h.with_fb Memory.wf_nil (fun _ hc => by cases hc), rfl, rfl⟩
  | refresh k _ ht => exact h.transmit ht
  | enable k _ he =>
    obtain ⟨-, rfl⟩ := Strip.enableStage_eq_some.mp he
    exact ⟨{ h with enabled_of_busy := fun _ => rfl }, rfl, rfl⟩
  | disable k _ hd =>
    obtain ⟨-, ho, rfl⟩ := Strip.disableStage_eq_some.mp hd
    refine ⟨{ h with enabled_of_busy := fun hb => ?_ }, rfl, rfl⟩
    simp only [Strip.occupancy] at *; omega

/-- TX_START keeps the strip good, and its occupancy. -/
theorem Strip.Ok.txStart {c : Config} {st : Strip} (h : st.Ok c) (e : st.txStartEnabled = true) :
    st.txStart.Ok c ∧ st.txStart.occupancy = st.occupancy := by
  simp only [Strip.txStartEnabled, Bool.and_eq_true, Bool.not_eq_true', decide_eq_true_eq] at e
  obtain ⟨⟨he, ha⟩, hp⟩ := e
  have hocc : st.txStart.occupancy = st.occupancy := by
    simp [Strip.occupancy, Strip.txStart, Strip.encReset, ha]; omega
  have hq := h.symmem_idle ha
  exact ⟨{ h with
    cursor_ok := show 0 < st.fbLen from Strip.fbLen_pos h
    occupancy_le := hocc ▸ h.occupancy_le
    symmem_idle := fun hf => by simp [Strip.txStart, Strip.encReset] at hf
    enabled_of_busy := fun _ => he
    symmem_ok := by
      intro d hd
      simp only [Strip.txStart, Strip.encReset, hq] at hd
      cases hd }, hocc⟩

/-- ENC_STEP keeps the strip good. -/
theorem Strip.Ok.encNext {c : Config} {st : Strip} (h : st.Ok c)
    (e : st.encEnabled c.memSymbols = true) : (st.encNext c.memSymbols).Ok c := by
  obtain ⟨ha, hs⟩ := Strip.encEnabled_iff.mp e
  rcases hs with ⟨hs, hfree⟩ | ⟨hs, hfree⟩
  · have hbits : ∀ d ∈ st.symmem, IsBit st.profile d := by
      have := h.symmem_ok; simpa [Strip.SymmemOk, hs] using this
    have hcur : st.enc.cursor < st.fbLen := by
      have := h.cursor_ok; simpa [Strip.CursorOk, hs] using this
    have hlen := st.chunk_le c.memSymbols
    have hsym := st.chunk_symbols c.memSymbols
    have hnew : ∀ d ∈ st.symmem ++ encodeBytes st.profile (st.chunkBytes c.memSymbols),
        IsBit st.profile d := fun d hd => by
      rcases List.mem_append.mp hd with hd | hd
      · exact hbits d hd
      · exact isBit_of_mem_encodeBytes hd
    have hstep : st.encNext c.memSymbols = { st with
        symmem := st.symmem ++ encodeBytes st.profile (st.chunkBytes c.memSymbols)
        enc := ⟨dataStateAt (st.enc.cursor + st.chunk c.memSymbols) st.fbLen,
          st.enc.cursor + st.chunk c.memSymbols⟩ } := by simp [Strip.encNext, hs]
    rw [hstep]
    refine { h with
      cursor_ok := ?_
      symmem_le := ?_
      symmem_idle := fun hf => absurd ha (by simp_all)
      symmem_ok := ?_ }
    · by_cases hc : st.enc.cursor + st.chunk c.memSymbols = st.fbLen
      · simp only [Strip.CursorOk, dataStateAt, hc, if_true]; rfl
      · simp only [Strip.CursorOk, dataStateAt, hc, if_false]
        show st.enc.cursor + st.chunk c.memSymbols < st.fbLen
        omega
    · simp only [List.length_append, encodeBytes_length, Strip.chunkBytes, List.length_map,
        List.length_range']
      simp only [Strip.symFree] at hsym
      omega
    · by_cases hc : st.enc.cursor + st.chunk c.memSymbols = st.fbLen
      · simp only [Strip.SymmemOk, dataStateAt, hc, if_true]; exact hnew
      · simp only [Strip.SymmemOk, dataStateAt, hc, if_false]; exact hnew
  · have hbits : ∀ d ∈ st.symmem, IsBit st.profile d := by
      have := h.symmem_ok; simpa [Strip.SymmemOk, hs] using this
    have hcur : st.enc.cursor = st.fbLen := by
      have := h.cursor_ok; simpa [Strip.CursorOk, hs] using this
    have hstep : st.encNext c.memSymbols = st.encStepReset := by simp [Strip.encNext, hs]
    rw [hstep]
    exact { h with
      cursor_ok := hcur
      symmem_le := by simp [Strip.encStepReset, Strip.symPush]; omega
      symmem_idle := fun hf => absurd ha (by simp_all [Strip.encStepReset, Strip.symPush])
      symmem_ok := .inr (by simpa [Strip.encStepReset, Strip.symPush] using hbits) }

/-- SEQ_STEP keeps the strip good. -/
theorem Strip.Ok.seqStep {c : Config} {st : Strip} (h : st.Ok c) {d : Descriptor}
    {rest : List Descriptor} (ha : st.active = true) (hq : st.symmem = d :: rest) :
    ({ st with symmem := rest } : Strip).Ok c := by
  have hl := h.symmem_le
  refine { h with
    symmem_le := by simp only [hq, List.length_cons] at hl; show rest.length ≤ _; omega
    symmem_idle := fun hf => absurd ha (by simp_all)
    symmem_ok := ?_ }
  have hok := h.symmem_ok
  unfold Strip.SymmemOk at hok ⊢
  cases hs : st.enc.state <;> simp only [hs, hq] at hok ⊢
  · exact fun e he => hok e (List.mem_cons_of_mem _ he)
  · exact fun e he => hok e (List.mem_cons_of_mem _ he)
  · rcases hok with hok | ⟨hlast, hbits⟩
    · cases hok
    · cases rest with
      | nil => exact .inl rfl
      | cons e es =>
        refine .inr ⟨by simpa using hlast, fun x hx => hbits x ?_⟩
        rw [List.dropLast_cons_of_ne_nil (by simp)]
        exact List.mem_cons_of_mem _ hx

/-- TX_DONE keeps the strip good. -/
theorem Strip.Ok.txDone {c : Config} {st : Strip} (h : st.Ok c) (e : st.txDoneEnabled = true) :
    st.txDone.Ok c := by
  simp only [Strip.txDoneEnabled, Bool.and_eq_true, decide_eq_true_eq, List.isEmpty_iff] at e
  obtain ⟨⟨ha, -⟩, hq⟩ := e
  have hocc : st.txDone.occupancy + 1 = st.occupancy := by
    simp [Strip.occupancy, Strip.txDone, ha]
  exact { h with
    occupancy_le := by have := h.occupancy_le; omega
    symmem_idle := fun _ => hq
    enabled_of_busy := fun _ => h.enabled_of_busy (by omega) }

/-- What SEQ_STEP emits from a good strip: a canonical descriptor, low at its end, of at least one tick a
half (R22, R147, R152). -/
theorem Strip.Ok.head {c : Config} {st : Strip} (h : st.Ok c) {d : Descriptor} {rest : List Descriptor}
    (hq : st.symmem = d :: rest) : d.levelB = .low ∧ 1 ≤ d.durationA ∧ 1 ≤ d.durationB := by
  obtain ⟨h0h, h0l, h1h, h1l, hra, hrb⟩ := h.profile_fits
  have hbit : ∀ d, IsBit st.profile d → d.levelB = .low ∧ 1 ≤ d.durationA ∧ 1 ≤ d.durationB := by
    rintro d (rfl | rfl)
    · exact ⟨rfl, h0h.1, h0l.1⟩
    · exact ⟨rfl, h1h.1, h1l.1⟩
  have hok := h.symmem_ok
  unfold Strip.SymmemOk at hok
  cases hs : st.enc.state <;> simp only [hs, hq] at hok
  · exact hbit d (hok d List.mem_cons_self)
  · exact hbit d (hok d List.mem_cons_self)
  · rcases hok with hok | ⟨hlast, hbits⟩
    · cases hok
    · cases rest with
      | nil =>
        simp only [List.getLast?_singleton, Option.some.injEq] at hlast
        subst hlast
        exact ⟨rfl, hra.1, hrb.1⟩
      | cons e es =>
        refine hbit d (hbits d ?_)
        rw [List.dropLast_cons_of_ne_nil (by simp)]
        exact List.mem_cons_self

/-! ### The state -/

theorem State.Inv.live {s : State} (h : s.Inv) {k : Nat} {st : Strip} (hs : s.stripAt k = some st) :
    st.Ok s.config := h.strips_ok st (State.mem_liveStrips.mpr ⟨k, hs⟩)

/-- A block within the bounds has room in symbol memory for a whole byte (R5, U14). -/
theorem State.Inv.memSymbols {s : State} (h : s.Inv) : 8 ≤ s.config.memSymbols := h.bounds.2.2.2.1

/-- A block within the bounds can queue a transmission (R4, U14). -/
theorem State.Inv.queueDepth {s : State} (h : s.Inv) : 1 ≤ s.config.queueDepth := h.bounds.1

/-- Inputs are no part of the invariant. -/
theorem State.Inv.takeMove {s : State} (h : s.Inv) : s.takeMove.Inv := by
  unfold State.takeMove
  split <;> exact { h with }

theorem State.Inv.issuer {s : State} (h : s.Inv) (t : Nat) : ({ s with issuer := t } : State).Inv :=
  { h with }

/-- A response keeps the invariant. -/
theorem State.Inv.respond {s : State} (h : s.Inv) (t : Nat) (w : ResponseWord) : (s.respond t w).Inv :=
  { h with
    tasks_length := by simpa [State.respond_tasks] using h.tasks_length
    waits_live := fun task ht v hv => by
      obtain ⟨k, hk⟩ := List.mem_iff_getElem?.mp ht
      have hw := s.respond_waitOf t w k
      have : s.waitOf k = some v := by
        rw [← hw, State.waitOf, hk]; exact hv
      cases hk' : s.tasks[k]? with
      | none => simp [State.waitOf, hk'] at this
      | some task' =>
        simp only [State.waitOf, hk', Option.bind_some] at this
        exact h.waits_live task' (List.mem_of_getElem? hk') v this }

/-- A wait that ends, or begins on a Live strip, keeps the invariant. -/
theorem State.Inv.setWait {s : State} (h : s.Inv) (t : Nat) (w : Option Waiting)
    (hw : ∀ v ∈ w, (s.stripAt v.h).isSome = true) : (s.setWait t w).Inv :=
  { h with
    tasks_length := by simpa [State.setWait_tasks] using h.tasks_length
    waits_live := fun task ht v hv => by
      obtain ⟨k, hk⟩ := List.mem_iff_getElem?.mp ht
      rw [State.setWait_tasks, List.getElem?_modify] at hk
      cases hk' : s.tasks[k]? with
      | none => simp [hk'] at hk
      | some task' =>
        by_cases htk : t = k
        · simp [hk', htk] at hk
          subst hk
          exact hw v hv
        · simp [hk', htk] at hk
          subst hk
          exact h.waits_live task' (List.mem_of_getElem? hk') v hv }

/-- A strip replaced by a good one of the same pin and buffer size keeps the invariant. -/
theorem State.Inv.setStrip {s : State} (h : s.Inv) {k : Nat} {st st' : Strip}
    (hs : s.stripAt k = some st) (hok : st'.Ok s.config) (hg : st'.gpio = st.gpio)
    (hl : st'.fbLen = st.fbLen) : (s.setStrip k st').Inv := by
  have hk := State.stripAt_lt hs
  obtain ⟨before, after, hlive, hset, -⟩ := State.liveStrips_split hk
  rw [hs] at hlive
  simp only [Option.toList_some] at hlive
  exact
    { h with
      bounds := by simpa using h.bounds
      slots_length := by simpa using h.slots_length
      strips_ok := fun x hx => by
        rw [hset] at hx
        have hx' := h.strips_ok x
        rw [hlive] at hx'
        simp only [List.mem_append, List.mem_singleton] at hx hx'
        rcases hx with (hx | rfl) | hx
        · exact hx' (.inl (.inl hx))
        · exact hok
        · exact hx' (.inr hx)
      pool := by
        have := h.pool
        rw [hlive] at this
        rw [hset]
        simpa [hl] using this
      pins_distinct := by
        have := h.pins_distinct
        rw [hlive] at this
        rw [hset]
        simpa [hg] using this
      waits_live := fun task ht v hv => by
        rw [State.setStrip_stripAt hk]
        split
        · rfl
        · exact h.waits_live task ht v hv }

/-- A new good strip on a free pin, its bytes taken from the pool, keeps the invariant. -/
theorem State.Inv.install {s : State} (h : s.Inv) {k : Nat} {st : Strip} (hk : k < s.slots.length)
    (hs : s.stripAt k = none) (hok : st.Ok s.config) (hpool : st.fbLen ≤ s.poolFree)
    (hpin : s.pinInUse st.gpio = false) : (s.install k st).Inv := by
  obtain ⟨before, after, hlive, hset, -⟩ := State.liveStrips_split hk
  rw [hs] at hlive
  simp only [Option.toList_none, List.append_nil] at hlive
  rw [State.pinInUse_eq_false] at hpin
  have hset' : ({ s with poolFree := s.poolFree - st.fbLen }.setStrip k st).liveStrips =
      before ++ [st] ++ after := hset st
  refine State.Inv.respond (s := { s with poolFree := s.poolFree - st.fbLen }.setStrip k st) ?_ _ _
  exact
    { h with
      bounds := by simpa using h.bounds
      slots_length := by simpa using h.slots_length
      strips_ok := fun x hx => by
        rw [hset'] at hx
        have hx' := h.strips_ok x
        rw [hlive] at hx'
        simp only [List.mem_append, List.mem_singleton] at hx hx'
        rcases hx with (hx | rfl) | hx
        · exact hx' (.inl hx)
        · exact hok
        · exact hx' (.inr hx)
      pool := by
        have := h.pool
        rw [hlive] at this
        rw [hset']
        simp only [List.map_append, List.sum_append, List.map_cons, List.map_nil, List.sum_cons,
          List.sum_nil, State.setStrip_poolFree, State.setStrip_config] at this ⊢
        omega
      pins_distinct := by
        have := h.pins_distinct
        rw [hlive] at this hpin
        rw [hset']
        simp only [List.map_append, List.map_cons, List.append_assoc,
          List.singleton_append]
        rw [List.nodup_middle]
        refine List.nodup_cons.mpr ⟨?_, by simpa using this⟩
        intro hm
        rw [← List.map_append] at hm
        obtain ⟨x, hx, hxg⟩ := List.mem_map.mp hm
        exact hpin x hx hxg
      waits_live := fun task ht v hv => by
        have hk' : k < ({ s with poolFree := s.poolFree - st.fbLen } : State).slots.length := hk
        rw [State.setStrip_stripAt hk']
        split
        · rfl
        · exact h.waits_live task ht v hv }

/-- A strip no task waits on, released, keeps the invariant. -/
theorem State.Inv.releaseStrip {s : State} (h : s.Inv) {k : Nat} {st : Strip}
    (hs : s.stripAt k = some st) (hw : s.waitedOn k = false) : (s.releaseStrip k st).Inv := by
  have hk := State.stripAt_lt hs
  obtain ⟨before, after, hlive, -, hclear⟩ := State.liveStrips_split hk
  rw [hs] at hlive
  simp only [Option.toList_some] at hlive
  rw [State.waitedOn_eq_false] at hw
  have hclear' : (s.releaseStrip k st).liveStrips = before ++ after := hclear
  exact
    { h with
      bounds := by simpa using h.bounds
      slots_length := by simpa using h.slots_length
      strips_ok := fun x hx => by
        rw [hclear'] at hx
        refine h.strips_ok x ?_
        rw [hlive]
        simp only [List.mem_append, List.mem_singleton] at hx ⊢
        rcases hx with hx | hx
        · exact .inl (.inl hx)
        · exact .inr hx
      pool := by
        have := h.pool
        rw [hlive] at this
        rw [hclear']
        simp only [List.map_append, List.sum_append, List.map_cons, List.map_nil, List.sum_cons,
          List.sum_nil, State.releaseStrip_poolFree, State.releaseStrip_config] at this ⊢
        omega
      pins_distinct := by
        have := h.pins_distinct
        rw [hlive] at this
        rw [hclear']
        simp only [List.map_append, List.map_cons, List.append_assoc,
          List.singleton_append] at this ⊢
        exact (List.nodup_cons.mp (List.nodup_middle.mp this)).2
      waits_live := fun task ht v hv => by
        rw [State.releaseStrip_stripAt, if_neg (hw task ht v hv)]
        exact h.waits_live task ht v hv }

/-- A canonical descriptor on a good wire keeps the invariant. -/
theorem State.Inv.wireEmitAll {s : State} (h : s.Inv) {g hz : Nat} {d : Descriptor} (hg : Fits8 g)
    (hlow : d.levelB = .low) (ha : 1 ≤ d.durationA) (hb : 1 ≤ d.durationB) :
    (s.wireEmitAll g (d.segments hz)).Inv := by
  refine { h with wires_wf := State.wireEmitAll_wf h.wires_wf g _, wires_ok := fun e he => ?_ }
  have hwf := State.wireEmitAll_wf h.wires_wf g (d.segments hz)
  have hread : (s.wireEmitAll g (d.segments hz)).wire e.1 = e.2 := cellRead_of_mem hwf.1 he
  rw [State.wireEmitAll_wire h.wires_wf] at hread
  by_cases heg : e.1 = g
  · rw [if_pos heg] at hread
    have hold : ∀ seg ∈ (s.wire g).trace, 1 ≤ seg.ticks := by
      by_cases hsil : s.wire g = Wire.silent
      · rw [hsil]; intro seg hseg; cases hseg
      · exact (h.wires_ok _ (mem_of_cellRead_ne hsil)).ticks_pos
    rw [← hread, heg]
    exact
      { pin_fits := hg
        ticks_pos := fun seg hseg => by
          simp only [List.mem_append, Descriptor.segments, List.mem_cons, List.not_mem_nil,
            or_false] at hseg
          rcases hseg with hseg | rfl | rfl
          · exact hold seg hseg
          · exact ha
          · exact hb
        level_eq := by simp [Descriptor.segments]
        level_low := hlow }
  · rw [if_neg heg] at hread
    refine h.wires_ok e ?_
    have hne : cellRead Wire.silent s.wires e.1 ≠ Wire.silent := by
      have := hwf.2 e he
      rw [← hread] at this
      exact this
    have := mem_of_cellRead_ne hne
    rw [show cellRead Wire.silent s.wires e.1 = e.2 from hread] at this
    exact this

end Sys2Proof.Machine
end

