-- ==== Sys2Proof/Laws/Slots.lean ====
section
/-! SUPPORT. What a move does to one slot, said once: the case analysis behind every rule about all steps. -/

namespace Sys2Proof.Machine

/-- What the move `m` does to slot `k`: from what it held to what it holds. -/
inductive SlotEffect (s : State) (k : Nat) : Move → Option Strip → Option Strip → Prop
  | same (m : Move) (o : Option Strip) : SlotEffect s k m o o
  | created (t : Nat) (w : CommandWord) (format : ChannelFormat) (gpio n hz : Nat) (p : Profile)
      (hd : decodeWord w = .ok (.create format gpio n hz)) (hf : s.freeSlot = some k) :
      SlotEffect s k (.issue t w) none (some (Strip.created format gpio n hz p))
  | command (t : Nat) (w : CommandWord) (i : Instr) (st st' : Strip) (hd : decodeWord w = .ok i)
      (hh : handleOf i = some k) (hc : StripCommand s.config st i st') :
      SlotEffect s k (.issue t w) (some st) (some st')
  | waits (t : Nat) (w : CommandWord) (timeoutMs : Nat) (st st' : Strip)
      (hd : decodeWord w = .ok (.refreshWait k timeoutMs))
      (ht : st.transmit s.config.queueDepth = some st') :
      SlotEffect s k (.issue t w) (some st) (some st')
  | destroyed (t : Nat) (w : CommandWord) (st : Strip) (hd : decodeWord w = .ok (.destroy k))
      (ho : st.occupancy = 0) : SlotEffect s k (.issue t w) (some st) none
  | txStart (st : Strip) (he : st.txStartEnabled = true) :
      SlotEffect s k (.txStart k) (some st) (some st.txStart)
  | enc (st : Strip) (he : st.encEnabled s.config.memSymbols = true) :
      SlotEffect s k (.encStep k) (some st) (some (st.encNext s.config.memSymbols))
  | seq (st : Strip) (d : Descriptor) (rest : List Descriptor) (ha : st.active = true)
      (hq : st.symmem = d :: rest) :
      SlotEffect s k (.seqStep k) (some st) (some { st with symmem := rest })
  | txDone (st : Strip) (he : st.txDoneEnabled = true) :
      SlotEffect s k (.txDone k) (some st) (some st.txDone)

/-- The effect of a move on slot `k`, where it puts `st'` into slot `h`. -/
theorem slotEffect_set {s t : State} {h k : Nat} {m : Move} {st st' : Strip} (hs : s.stripAt h = some st)
    (ht : t.slots = s.slots.set h (some st')) (own : h = k → SlotEffect s k m (some st) (some st')) :
    SlotEffect s k m (s.stripAt k) (t.stripAt k) := by
  have hu : t.stripAt k = (s.setStrip h st').stripAt k := State.stripAt_congr ht k
  rw [hu, State.setStrip_stripAt (State.stripAt_lt hs)]
  by_cases hk : k = h
  · subst hk; rw [if_pos rfl, hs]; exact own rfl
  · rw [if_neg hk]; exact .same _ _

/-- Everything a move that answers a next state can do to slot `k`. -/
theorem runMove_slot {m : Move} {s t : State} (e : runMove m s = .next t) (k : Nat) :
    SlotEffect s k m (s.stripAt k) (t.stripAt k) := by
  cases runMove_cases e with
  | idle => exact .same _ _
  | illegal => exact .same _ _
  | command task w ht hw i hd u hx =>
    cases exec_cases hx with
    | failed => exact .same _ _
    | created format gpio n hz h p hn hneed hch hpin =>
      obtain ⟨hf, -, -⟩ := State.acquireChannel_eq_some.mp hch
      obtain ⟨hl, hs, -⟩ := State.freeSlot_eq_some.mp hf
      rw [State.install_stripAt hl]
      by_cases hk : k = h
      · subst hk
        rw [if_pos rfl, show s.stripAt k = none from hs]
        exact .created task w format gpio n hz p hd hf
      · rw [if_neg hk]; exact .same _ _
    | strip _ h st st' hh hs hc =>
      exact slotEffect_set (s := s) hs rfl fun hk => by subst hk; exact .command task w i st st' hd hh hc
    | waits h timeoutMs st st' hs ht' =>
      exact slotEffect_set (s := s) hs rfl fun hk => by subst hk; exact .waits task w timeoutMs st st' hd ht'
    | destroyed h st hs ho hwt =>
      rw [State.answer_stripAt, State.releaseStrip_stripAt]
      by_cases hk : k = h
      · subst hk
        rw [if_pos rfl, show s.stripAt k = some st from hs]
        exact .destroyed task w st hd ho
      · rw [if_neg hk]; exact .same _ _
  | waitComplete => exact .same _ _
  | waitTimeout => exact .same _ _
  | txStart h st hs he => exact slotEffect_set hs rfl fun hk => by subst hk; exact .txStart st he
  | enc h st hs he => exact slotEffect_set hs rfl fun hk => by subst hk; exact .enc st he
  | seq h st d rest hs ha hq => exact slotEffect_set hs rfl fun hk => by subst hk; exact .seq st d rest ha hq
  | txDone h st hs he => exact slotEffect_set hs rfl fun hk => by subst hk; exact .txDone st he

/-- Everything a step that answers a next state can do to slot `k`. -/
theorem step_slot {s t : State} (e : step s = .next t) (k : Nat) :
    SlotEffect s.takeMove k s.nextMove (s.stripAt k) (t.stripAt k) := by
  simpa using runMove_slot (s := s.takeMove) e k

end Sys2Proof.Machine
end

