-- ==== Sys2Proof/Laws/Fairness.lean ====
section
/-! SUPPORT. Executions and fairness (R58): an internal step always answers, one that is not enabled changes nothing, a run
of `step` is an execution, and from every state there is a weakly fair execution with a silent host. -/

namespace Sys2Proof.Machine

/-- An internal step answers a next state, with the same tasks and as many slots. -/
theorem runMove_internal {h : Nat} {m : Move} (hm : internalOf h m) (s : State) :
    ∃ t, runMove m s = .next t ∧ t.tasks = s.tasks ∧ t.slots.length = s.slots.length := by
  rcases hm with rfl | rfl | rfl | rfl
  · simp only [runMove, stepTxStart]
    (repeat' split) <;> exact ⟨_, rfl, rfl, by simp⟩
  · simp only [runMove, stepEnc]
    split
    · exact ⟨_, rfl, rfl, rfl⟩
    · next st hs =>
      obtain ⟨status, e⟩ := st.encStep_eq s.config.memSymbols
      simp only [e]
      split <;> exact ⟨_, rfl, rfl, by simp⟩
  · simp only [runMove, stepSeq]
    split
    · exact ⟨_, rfl, rfl, rfl⟩
    · split
      · exact ⟨_, rfl, rfl, rfl⟩
      · exact ⟨_, rfl, by simp, by simp⟩
  · simp only [runMove, stepTxDone]
    (repeat' split) <;> exact ⟨_, rfl, rfl, by simp⟩

/-- No step of an Absent slot is enabled. -/
theorem enabled_absent {h : Nat} {m : Move} (hm : internalOf h m) {s : State} (hs : s.stripAt h = none) :
    s.enabled m = false := by
  rcases hm with rfl | rfl | rfl | rfl <;> simp [State.enabled, hs]

/-- The SEQ_STEP of a Live strip is enabled when its symbol memory can be popped (R147). -/
theorem Strip.symPop_isSome (st : Strip) : st.symPop.isSome = (st.active && !st.symmem.isEmpty) := by
  unfold Strip.symPop
  cases ha : st.active <;> cases hq : st.symmem <;> rfl

/-- An internal step that is not enabled leaves the state (log 3). -/
theorem runMove_of_not_enabled {h : Nat} {m : Move} (hm : internalOf h m) {s : State}
    (he : s.enabled m = false) : runMove m s = .next s := by
  cases hs : s.stripAt h with
  | none =>
    rcases hm with rfl | rfl | rfl | rfl <;>
      simp [runMove, stepTxStart, stepEnc, stepSeq, stepTxDone, hs]
  | some st =>
    rcases hm with rfl | rfl | rfl | rfl
    · have : st.txStartEnabled = false := by simpa [State.enabled, hs] using he
      simp [runMove, stepTxStart, hs, this]
    · have : st.encEnabled s.config.memSymbols = false := by simpa [State.enabled, hs] using he
      simp [runMove, stepEnc, hs, this]
    · have : st.symPop = none := by
        rw [← Option.isSome_eq_false_iff.trans Option.isNone_iff_eq_none, Strip.symPop_isSome]
        simpa only [State.enabled, hs, Option.any_some] using he
      simp [runMove, stepSeq, hs, this]
    · have : st.txDoneEnabled = false := by simpa [State.enabled, hs] using he
      simp [runMove, stepTxDone, hs, this]

/-- Taking an input changes nothing of the block. -/
theorem sameBlock_takeMove (s : State) : SameBlock s s.takeMove := by
  unfold State.takeMove
  split <;> rfl

/-- The runs of `step` are executions, their moves the inputs the states themselves name. -/
theorem isExecution_of_steps {states : Nat → State}
    (h : ∀ n, step (states n) = .next (states (n + 1))) :
    IsExecution states fun n => (states n).nextMove :=
  fun n => ⟨(states n).takeMove, sameBlock_takeMove _, h n⟩

/-- The invariant does not read the inputs still to come. -/
theorem State.Inv.sameBlock {s t : State} (h : SameBlock s t) (hi : s.Inv) : t.Inv := by
  rw [h]
  exact ⟨hi.bounds, hi.slots_length, hi.tasks_length, hi.strips_ok, hi.pool, hi.pins_distinct, hi.wires_wf,
    hi.wires_ok, hi.waits_live⟩

section Completions

variable (states : Nat → State) (moves : Nat → Move) (h n : Nat)

@[simp] theorem completions_self : completions states moves h n n = 0 := by simp [completions]

/-- Completions up to `l` are those up to `k` and those from there on. -/
theorem completions_split {k l : Nat} (h1 : n ≤ k) (h2 : k ≤ l) :
    completions states moves h n l = completions states moves h n k + completions states moves h k l := by
  unfold completions
  rw [show l - n = (k - n) + (l - k) by omega, ← List.range'_append_1, List.countP_append,
    show n + (k - n) = k by omega]

/-- One time: a TX_DONE that is taken while it is enabled is one completion (R149). -/
theorem completions_one {st : Strip} (hs : (states n).stripAt h = some st) :
    completions states moves h n (n + 1) =
      if moves n = .txDone h ∧ st.txDoneEnabled = true then 1 else 0 := by
  simp [completions, State.enabled, hs, List.countP_cons]

end Completions

/-- The internal steps of `slots` slots, one after the other, for ever. -/
def roundRobin (slots n : Nat) : Move :=
  match n % 4 with
  | 0 => .txStart (n / 4 % slots)
  | 1 => .encStep (n / 4 % slots)
  | 2 => .seqStep (n / 4 % slots)
  | _ => .txDone (n / 4 % slots)

theorem roundRobin_internal (slots n : Nat) : internalOf (n / 4 % slots) (roundRobin slots n) := by
  unfold roundRobin internalOf
  split <;> simp

/-- Every internal step of a slot comes round again. -/
theorem roundRobin_reaches {slots h : Nat} {m : Move} (hm : internalOf h m) (hh : h < slots) (n : Nat) :
    ∃ k, n ≤ k ∧ roundRobin slots k = m := by
  have turn : ∀ j, j < 4 → n ≤ 4 * (slots * n + h) + j ∧
      (4 * (slots * n + h) + j) % 4 = j ∧ (4 * (slots * n + h) + j) / 4 % slots = h := by
    intro j hj
    have hn : n ≤ slots * n := Nat.le_mul_of_pos_left n (by omega)
    refine ⟨by omega, by omega, ?_⟩
    rw [show (4 * (slots * n + h) + j) / 4 = slots * n + h by omega, Nat.mul_add_mod,
      Nat.mod_eq_of_lt hh]
  rcases hm with rfl | rfl | rfl | rfl
  · obtain ⟨h1, h2, h3⟩ := turn 0 (by omega)
    exact ⟨_, h1, by simp only [roundRobin, h2, h3]⟩
  · obtain ⟨h1, h2, h3⟩ := turn 1 (by omega)
    exact ⟨_, h1, by simp only [roundRobin, h2, h3]⟩
  · obtain ⟨h1, h2, h3⟩ := turn 2 (by omega)
    exact ⟨_, h1, by simp only [roundRobin, h2, h3]⟩
  · obtain ⟨h1, h2, h3⟩ := turn 3 (by omega)
    exact ⟨_, h1, by simp only [roundRobin, h2, h3]⟩

/-- The state a move leads to; the same state where it leads to none. -/
def afterMove (m : Move) (s : State) : State :=
  match runMove m s with
  | .next t => t
  | .fault _ => s
  | .refused _ => s

/-- The states of the round-robin execution from `s`. -/
def roundRobinStates (s : State) : Nat → State
  | 0 => s
  | n + 1 => afterMove (roundRobin s.slots.length n) (roundRobinStates s n)

theorem roundRobinStates_step (s : State) (n : Nat) :
    runMove (roundRobin s.slots.length n) (roundRobinStates s n) = .next (roundRobinStates s (n + 1)) ∧
      (roundRobinStates s (n + 1)).tasks = (roundRobinStates s n).tasks ∧
      (roundRobinStates s (n + 1)).slots.length = (roundRobinStates s n).slots.length := by
  obtain ⟨t, e, ht, hl⟩ := runMove_internal (roundRobin_internal s.slots.length n) (roundRobinStates s n)
  have : roundRobinStates s (n + 1) = t := by simp only [roundRobinStates, afterMove, e]
  rw [this]
  exact ⟨e, ht, hl⟩

/-- From every state there is a weakly fair execution in which the host is silent: fairness asks nothing that
cannot be had. -/
theorem exists_weaklyFair (s : State) :
    ∃ states moves, states 0 = s ∧ IsExecution states moves ∧ WeaklyFair states moves ∧
      (∀ n, moveIsIssue (moves n) = false) ∧ ∀ n, (states n).tasks = s.tasks := by
  have hl : ∀ n, (roundRobinStates s n).slots.length = s.slots.length := by
    intro n
    induction n with
    | zero => rfl
    | succ n ih => exact (roundRobinStates_step s n).2.2.trans ih
  refine ⟨roundRobinStates s, roundRobin s.slots.length, rfl,
    fun n => ⟨_, rfl, (roundRobinStates_step s n).1⟩, fun h m hm n he => ?_, fun n => ?_, fun n => ?_⟩
  · by_cases hh : h < s.slots.length
    · exact roundRobin_reaches hm hh n
    · have hs : (roundRobinStates s n).stripAt h = none := by
        cases hs : (roundRobinStates s n).stripAt h with
        | none => rfl
        | some st => exact absurd (State.stripAt_lt hs) (by rw [hl]; exact hh)
      exact absurd (he n (Nat.le_refl n)) (by rw [enabled_absent hm hs]; simp)
  · rcases roundRobin_internal s.slots.length n with e | e | e | e <;> rw [e] <;> rfl
  · induction n with
    | zero => rfl
    | succ n ih => exact (roundRobinStates_step s n).2.1.trans ih

end Sys2Proof.Machine
end

