-- ==== Sys2Proof/Laws/PerInstr.lean ====
section
/-! SUPPORT. Statements made for every command, one lemma per constructor: its word is legal (R84). -/

namespace Sys2Proof.Laws.Legal

/-- The word of the command has an assigned opcode and zeros in its reserved fields (R81, R84). -/
def Statement (i : Instr) : Prop := illegalWord (encode i) = false

theorem create (format : ChannelFormat) (gpio ledCount resolutionHz : Nat) :
    Statement (.create format gpio ledCount resolutionHz) := by
  obtain ⟨h1, h2, h3, -⟩ :=
    packFields_fields 1 0 format.code gpio ledCount (BitVec.ofNat 32 resolutionHz)
  simp only [Statement, illegalWord, reservedFieldSet, encode, h1, h2, h3]
  cases format <;> rfl

theorem setPixel (h index : Nat) (sample : Sample) : Statement (.setPixel h index sample) := by
  obtain ⟨h1, -, h3, h4, -⟩ := packFields_fields 2 h 0 0 index (packSample sample)
  simp [Statement, illegalWord, reservedFieldSet, encode, h1, h3, h4]

theorem clear (h : Nat) : Statement (.clear h) := by
  obtain ⟨h1, -, h3, h4, h5, h6⟩ := packFields_fields 3 h 0 0 0 0
  simp only [Statement, illegalWord, reservedFieldSet, encode, h1, h3, h4, h5, h6]
  rfl

theorem refresh (h : Nat) : Statement (.refresh h) := by
  obtain ⟨h1, -, h3, h4, h5, h6⟩ := packFields_fields 4 h 0 0 0 0
  simp only [Statement, illegalWord, reservedFieldSet, encode, h1, h3, h4, h5, h6]
  rfl

theorem refreshWait (h timeoutMs : Nat) : Statement (.refreshWait h timeoutMs) := by
  obtain ⟨h1, -, h3, h4, -, h6⟩ := packFields_fields 5 h 0 0 timeoutMs 0
  simp only [Statement, illegalWord, reservedFieldSet, encode, h1, h3, h4, h6]
  rfl

theorem enable (h : Nat) : Statement (.enable h) := by
  obtain ⟨h1, -, h3, h4, h5, h6⟩ := packFields_fields 6 h 0 0 0 0
  simp only [Statement, illegalWord, reservedFieldSet, encode, h1, h3, h4, h5, h6]
  rfl

theorem disable (h : Nat) : Statement (.disable h) := by
  obtain ⟨h1, -, h3, h4, h5, h6⟩ := packFields_fields 7 h 0 0 0 0
  simp only [Statement, illegalWord, reservedFieldSet, encode, h1, h3, h4, h5, h6]
  rfl

theorem destroy (h : Nat) : Statement (.destroy h) := by
  obtain ⟨h1, -, h3, h4, h5, h6⟩ := packFields_fields 8 h 0 0 0 0
  simp only [Statement, illegalWord, reservedFieldSet, encode, h1, h3, h4, h5, h6]
  rfl

end Sys2Proof.Laws.Legal
end

