-- ==== Sys2Proof/Tests/Slice0.lean ====
section
/-! SUPPORT. Tests: the well-formedness smoke, words and vectors of 95_test_vectors.md (V<n>), one step each, and for
every obligation with hypotheses a state and operands that meet them. -/

namespace Sys2Proof.Tests

open Sys2Proof.Machine

/-! ### Well-formedness: an ill-formed term for each check, refused -/

theorem test_illformed_create_gpio : (Instr.create .rgb 256 1 10000000).wellFormed = false := by decide
theorem test_illformed_create_ledCount : (Instr.create .rgb 8 4294967296 10000000).wellFormed = false := by
  decide
theorem test_illformed_create_resolution : (Instr.create .rgb 8 1 4294967296).wellFormed = false := by decide
theorem test_illformed_setPixel_handle : (Instr.setPixel 256 0 ⟨0, 0, 0, 0⟩).wellFormed = false := by decide
theorem test_illformed_setPixel_index :
    (Instr.setPixel 0 4294967296 ⟨0, 0, 0, 0⟩).wellFormed = false := by decide
theorem test_illformed_clear : (Instr.clear 256).wellFormed = false := by decide
theorem test_illformed_refresh : (Instr.refresh 256).wellFormed = false := by decide
theorem test_illformed_refreshWait_handle : (Instr.refreshWait 256 0).wellFormed = false := by decide
theorem test_illformed_refreshWait_timeout : (Instr.refreshWait 0 4294967296).wellFormed = false := by decide
theorem test_illformed_enable : (Instr.enable 256).wellFormed = false := by decide
theorem test_illformed_disable : (Instr.disable 256).wellFormed = false := by decide
theorem test_illformed_destroy : (Instr.destroy 256).wellFormed = false := by decide

/-! ### Words (V30, V33, V39, V40; the fields of R80 written out) -/

theorem test_decode_create : decodeWord 0x010001050000000201312D00#96 = .ok (.create .grbw 5 2 20000000) := rfl
/-- V39: pin 255 is legal. -/
theorem test_decode_create_rgb : decodeWord 0x010000FF0000000100989680#96 = .ok (.create .rgb 255 1 10000000) := rfl
theorem test_decode_setPixel :
    decodeWord 0x020100000000038301020304#96 = .ok (.setPixel 1 899 ⟨1, 2, 3, 4⟩) := rfl
/-- V39: an `s3` of 0xFF is legal. -/
theorem test_decode_setPixel_s3 :
    decodeWord 0x0200000000000000000000FF#96 = .ok (.setPixel 0 0 ⟨0, 0, 0, 0xFF⟩) := rfl
theorem test_decode_clear : decodeWord 0x030100000000000000000000#96 = .ok (.clear 1) := rfl
theorem test_decode_refresh : decodeWord 0x040100000000000000000000#96 = .ok (.refresh 1) := rfl
theorem test_decode_refreshWait : decodeWord 0x05010000000003E800000000#96 = .ok (.refreshWait 1 1000) := rfl
theorem test_decode_enable : decodeWord 0x060100000000000000000000#96 = .ok (.enable 1) := rfl
theorem test_decode_disable : decodeWord 0x070100000000000000000000#96 = .ok (.disable 1) := rfl
theorem test_decode_destroy : decodeWord 0x080100000000000000000000#96 = .ok (.destroy 1) := rfl

/-- The illegal words of V39. -/
theorem test_decode_illegal :
    ([0x000000000000000000000000#96, 0x090000000000000000000000#96, 0xFF0000000000000000000000#96,
      0x010002080000000100989680#96, 0x010100080000000100989680#96, 0x030000000000000100000000#96,
      0x040000010000000000000000#96, 0x050000000000006400000001#96, 0x020001000000000000000000#96].all
        fun w => (decodeWord w).toOption.isNone && illegalWord w) = true := by decide

/-- V40, the other way round. -/
theorem test_encode :
    encode (.create .grbw 8 900 10000000) = 0x010001080000038400989680#96 ∧
    encode (.setPixel 1 899 ⟨1, 2, 3, 4⟩) = 0x020100000000038301020304#96 ∧
    encode (.refreshWait 1 1000) = 0x05010000000003E800000000#96 ∧
    encode (.destroy 1) = 0x080100000000000000000000#96 := by decide

/-- V40, as listings (R88). -/
theorem test_listing :
    (Instr.create .grbw 8 900 10000000).listing = "create 900, GRBW, 8, 10000000" ∧
    (Instr.setPixel 1 899 ⟨1, 2, 3, 4⟩).listing = "setpix h1, 899, (1, 2, 3, 4)" ∧
    (Instr.refreshWait 1 1000).listing = "refreshw h1, 1000" := by decide

/-! ### The encoder's pure functions -/

/-- V11. -/
theorem test_profile_odd : Profile.ofResolution Config.reference 12345678 = ⟨3, 11, 7, 7, 987⟩ := by decide

/-- V18. -/
theorem test_reset_odd : resetPulse (Profile.ofResolution Config.reference 12345678) = ⟨.low, 493, .low, 494⟩ := by
  decide

/-- V12. -/
theorem test_descriptor_words :
    (zeroBit ⟨3, 9, 6, 6, 800⟩).word = 0x00098003#32 ∧ (oneBit ⟨3, 9, 6, 6, 800⟩).word = 0x00068006#32 ∧
    (resetPulse ⟨3, 9, 6, 6, 800⟩).word = 0x01900190#32 := by decide

/-- V13, 0xA5: most significant bit first. -/
theorem test_encodeByte :
    (encodeByte ⟨3, 9, 6, 6, 800⟩ 0xA5).map Descriptor.durationA = [6, 3, 6, 3, 3, 6, 3, 6] := by decide

/-- V14, `[01, FE]`. -/
theorem test_encodeFrame :
    (encodeFrame ⟨3, 9, 6, 6, 800⟩ [0x01, 0xFE]).map Descriptor.durationA =
      [3, 3, 3, 3, 3, 3, 3, 6, 6, 6, 6, 6, 6, 6, 6, 3, 400] := by decide

/-- R148. -/
theorem test_norm :
    normTrace (segmentsOf 10000000 [⟨.high, 3, .low, 9⟩, ⟨.low, 400, .low, 400⟩]) =
      [⟨.high, 3, 10000000⟩, ⟨.low, 809, 10000000⟩] := by decide

/-! ### A small block and its strip -/

/-- Two slots, 20 places of symbol memory, 16 bytes, two tasks, a queue of two. -/
def small : Config :=
  { Config.reference with memSymbols := 20, fbPoolBytes := 16, nTasks := 2, queueDepth := 2 }

/-- The profile of 10 MHz (95_test_vectors.md). -/
def p10 : Profile := ⟨3, 9, 6, 6, 800⟩

/-- One RGB pixel on pin 8 at 10 MHz, red in the buffer, idle and stopped. -/
def red : Strip where
  ledCount := 1
  format := .rgb
  gpio := 8
  resolutionHz := 10000000
  profile := p10
  fb := [(0, 0xFF)]
  enabled := false
  enc := ⟨.encodingData, 0⟩
  pending := 0
  active := false
  symmem := []

/-- The same, started. -/
def started : Strip := { red with enabled := true }

/-- The same with `pending` transmissions queued. -/
def queued (pending : Nat) : Strip := { red with enabled := true, pending := pending }

/-- The same with a transmission in flight. -/
def flying (enc : Encoder) (symmem : List Descriptor) : Strip :=
  { red with enabled := true, active := true, enc := enc, symmem := symmem }

/-- The block with `st` in slot 0 and task 0 as `wait` says; `moves` are to come. -/
def block (st : Strip) (wait : Option Waiting) (moves : List Move) : State where
  config := small
  slots := [some st, none]
  wires := []
  poolFree := 13
  tasks := [⟨wait, []⟩, .ready]
  issuer := 0
  schedule := moves
  draws := 0

/-- The state an outcome answers, if it answers one. -/
def nextOf (o : Host.Outcome State Fault Refusal) : Option State :=
  match o with
  | .next t => some t
  | .fault _ => none
  | .refused _ => none

/-- The reason an outcome is refused for, if it is. -/
def refusalOf (o : Host.Outcome State Fault Refusal) : Option Refusal :=
  match o with
  | .next _ => none
  | .fault _ => none
  | .refused r => some r

/-- Frame-buffer bytes and the last answer, after `i` in `s`. -/
def bytesAfter (i : Instr) (s : State) : Option (List Byte × List ResponseWord) :=
  (nextOf (exec i s)).map fun t => ((t.liveStrips.map Strip.fbBytes).flatten, t.responsesOf 0)

/-- Start bit, queue, flight and answers, after `i` in `s`. -/
def stageAfter (i : Instr) (s : State) : Option (List (Bool × Nat × Bool) × List ResponseWord) :=
  (nextOf (exec i s)).map fun t =>
    (t.liveStrips.map fun st => (st.enabled, st.pending, st.active), t.responsesOf 0)

/-! ### Single steps -/

/-- V30, the first row. -/
theorem test_create :
    (nextOf (exec (.create .rgb 8 1 10000000) State.reset)).map
      (fun t => (t.stripAt 0, t.poolFree, t.responsesOf 0)) =
    some (some { red with fb := [] }, 4093, [0x00000000#32]) := by decide

/-- V35: allocation is checked before the channel. -/
theorem test_create_allocation :
    (nextOf (exec (.create .rgb 8 6 1000000) (State.powerOn small (by decide)))).map
      (fun t => (t.liveStrips, t.poolFree, t.responsesOf 0)) = some ([], 16, [0x00000001#32]) := by decide

/-- V31 on one pixel: all four values stored, in order. -/
theorem test_setPixel_grbw :
    bytesAfter (.setPixel 0 0 ⟨0x11, 0x22, 0x33, 0x44⟩) (block { red with format := .grbw } none []) =
      some ([0x11, 0x22, 0x33, 0x44], [0x00000000#32]) := by decide

/-- V33: `s3` is stored nowhere on a 3-channel strip. -/
theorem test_setPixel_rgb :
    bytesAfter (.setPixel 0 1 ⟨0xAA, 0xBB, 0xCC, 0xDD⟩) (block { red with ledCount := 2 } none []) =
      some ([0xFF, 0, 0, 0xAA, 0xBB, 0xCC], [0x00000000#32]) := by decide

/-- V34. -/
theorem test_clear : bytesAfter (.clear 0) (block red none []) = some ([0, 0, 0], [0x00000000#32]) := by decide

/-- V36. -/
theorem test_refresh :
    stageAfter (.refresh 0) (block started none []) = some ([(true, 1, false)], [0x00000000#32]) := by decide

/-- V10: the queue is full. -/
theorem test_refresh_full :
    stageAfter (.refresh 0) (block (queued 2) none []) = some ([(true, 2, false)], [0x00000004#32]) := by decide

/-- V37, phase 1: queued, no answer yet, waiting. -/
theorem test_refreshWait :
    (nextOf (exec (.refreshWait 0 100) (block started none []))).map
      (fun t => (t.liveStrips.map Strip.pending, t.responsesOf 0, t.waitOf 0)) =
    some ([1], [], some ⟨0, 100⟩) := by decide

/-- V37 (b): the timeout, with the transmission still there. -/
theorem test_refreshWait_timeout :
    (nextOf (step (block (queued 1) (some ⟨0, 100⟩) [.waitTimeout 0]))).map
      (fun t => (t.liveStrips.map Strip.pending, t.responsesOf 0, t.waitOf 0)) =
    some ([1], [0x00000005#32], none) := by decide

/-- V38. -/
theorem test_enable : stageAfter (.enable 0) (block red none []) = some ([(true, 0, false)], [0x00000000#32]) := by
  decide
theorem test_disable :
    stageAfter (.disable 0) (block started none []) = some ([(false, 0, false)], [0x00000000#32]) := by decide
theorem test_disable_busy :
    stageAfter (.disable 0) (block (queued 1) none []) = some ([(true, 1, false)], [0x00000002#32]) := by decide
theorem test_destroy :
    (nextOf (exec (.destroy 0) (block started none []))).map (fun t => (t.liveStrips, t.poolFree, t.responsesOf 0)) =
      some ([], 16, [0x00000000#32]) := by decide
theorem test_destroy_absent :
    refusalOf (exec (.destroy 1) (block started none [])) = some (.destroyOfAbsent 1) := by decide

/-- V39: an illegal word changes nothing but the answers. -/
theorem test_illegal_word :
    (nextOf (step (block red none [.issue 0 0x030000000000000100000000#96]))).map
      (fun t => (t.slots, t.poolFree, t.responsesOf 0)) = some ([some red, none], 13, [0x00000007#32]) := by decide

/-- R182, U3: the DESTROY of a strip a task waits on, while a transmission is queued. -/
theorem test_destroy_busy_waited :
    refusalOf (exec (.destroy 0) (block (queued 1) (some ⟨0, 100⟩) [])) = some (.destroyWhileWaiting 0) := by
  decide

/-- V16: two whole bytes of three fit into 20 places. -/
theorem test_encStep :
    (nextOf (step (block (flying ⟨.encodingData, 0⟩ []) none [.encStep 0]))).map
      (fun t => t.liveStrips.map fun st => (st.enc.cursor, st.symmem.length, st.enc.state)) =
    some [(2, 16, .encodingData)] := by decide

/-- R147's example. -/
theorem test_seqStep :
    (nextOf (step (block (flying ⟨.encodingData, 1⟩ [⟨.high, 6, .low, 6⟩]) none [.seqStep 0]))).map
      (fun t => ((t.wire 8).trace.map fun g => (g.level, g.ticks), (t.wire 8).level)) =
    some ([(.high, 6), (.low, 6)], .low) := by decide

/-- The word handed over is what the next step runs, from reset on. -/
theorem test_fetch :
    (nextOf (step (State.reset.withFetchWord 96 0x010000080000000100989680))).map
      (fun t => (t.liveStrips.map Strip.gpio, t.responsesOf 0)) = some ([8], [0x00000000#32]) := by decide

/-! ### Witnesses: for every obligation with hypotheses, a state and operands that meet them together -/

/-- The invariant of a strip, field by field. -/
theorem red_ok : red.Ok small where
  ledCount_pos := by decide
  ledCount_fits := by decide
  gpio_fits := by decide
  resolution_fits := by decide
  profile_eq := by decide
  profile_fits := by decide
  fb_wf := by decide
  fb_inside := by decide
  cursor_ok := show 0 < 3 by decide
  occupancy_le := by decide
  symmem_le := by decide
  symmem_idle := by decide
  enabled_of_busy := by decide
  symmem_ok := show ∀ d ∈ ([] : List Descriptor), IsBit p10 d by decide

/-- A busy version of the strip is as good, if its transmission is. -/
theorem busy_ok {pending : Nat} {active : Bool} {enc : Encoder} {symmem : List Descriptor}
    (hc : ({ red with enc := enc } : Strip).CursorOk) (ho : pending + active.toNat ≤ 2)
    (hl : symmem.length ≤ 20) (hi : active = false → symmem = [])
    (hs : ({ red with enc := enc, symmem := symmem } : Strip).SymmemOk) :
    ({ red with enabled := true, pending := pending, active := active, enc := enc, symmem := symmem } :
      Strip).Ok small where
  ledCount_pos := red_ok.ledCount_pos
  ledCount_fits := red_ok.ledCount_fits
  gpio_fits := red_ok.gpio_fits
  resolution_fits := red_ok.resolution_fits
  profile_eq := red_ok.profile_eq
  profile_fits := red_ok.profile_fits
  fb_wf := red_ok.fb_wf
  fb_inside := red_ok.fb_inside
  cursor_ok := hc
  occupancy_le := ho
  symmem_le := hl
  symmem_idle := hi
  enabled_of_busy := fun _ => rfl
  symmem_ok := hs

/-- The invariant of the block with a good one-pixel strip on it. -/
theorem block_inv {st : Strip} {wait : Option Waiting} {moves : List Move} (h : st.Ok small)
    (hl : st.fbLen = 3) (hw : ∀ w ∈ wait, w.h = 0) : (block st wait moves).Inv where
  bounds := show small.Bounds by decide
  slots_length := rfl
  tasks_length := rfl
  strips_ok := by
    intro x hx
    cases List.mem_singleton.mp hx
    exact h
  pool := by
    show 13 + ([st].map Strip.fbLen).sum = 16
    simp [hl]
  pins_distinct := List.nodup_singleton _
  wires_wf := ⟨List.Pairwise.nil, by simp [block]⟩
  wires_ok := by simp [block]
  waits_live := by
    intro task ht w hwt
    simp only [block, List.mem_cons, List.not_mem_nil, or_false] at ht
    rcases ht with rfl | rfl
    · rw [hw w hwt]; rfl
    · cases hwt

theorem started_ok : started.Ok small :=
  busy_ok (show 0 < 3 by decide) (by decide) (by decide) (by decide)
    (show ∀ d ∈ ([] : List Descriptor), IsBit p10 d by decide)

theorem queued_ok : (queued 1).Ok small :=
  busy_ok (show 0 < 3 by decide) (by decide) (by decide) (by decide)
    (show ∀ d ∈ ([] : List Descriptor), IsBit p10 d by decide)

/-- In flight, one descriptor of the first byte left in symbol memory. -/
def sending : Strip := flying ⟨.encodingData, 1⟩ [oneBit p10]

theorem sending_ok : sending.Ok small :=
  busy_ok (show 1 < 3 by decide) (by decide) (by decide) (by decide)
    (show ∀ d ∈ [oneBit p10], IsBit p10 d by decide)

/-- In flight, everything sent. -/
def sent : Strip := flying ⟨.complete, 3⟩ []

theorem sent_ok : sent.Ok small :=
  busy_ok (show 3 = 3 from rfl) (by decide) (by decide) (by decide) (.inl rfl)

/-- Every bound of R4 and R5 at its least value, and the largest number of slots. -/
theorem witness_PowerOnResetState :
    ({ Config.reference with queueDepth := 1, nStrips := 1, memSymbols := 8, fbPoolBytes := 3 } : Config).Bounds ∧
    ({ Config.reference with nStrips := 256 } : Config).Bounds := by decide

theorem witness_PowerOnResetSatisfiesInvariant : Config.reference.Bounds := by decide

/-- The values U14 names, each outside its bound. -/
theorem test_bounds :
    ¬ ({ Config.reference with memSymbols := 7 } : Config).Bounds ∧
    ¬ ({ Config.reference with queueDepth := 0 } : Config).Bounds ∧
    ¬ ({ Config.reference with nStrips := 0 } : Config).Bounds ∧
    ¬ ({ Config.reference with fbPoolBytes := 2 } : Config).Bounds ∧
    ¬ ({ Config.reference with nTasks := 0 } : Config).Bounds := by decide

theorem witness_StepRunsTheDecodedCommand :
    let s := block red none [.issue 1 0x060000000000000000000000#96]
    s.schedule = [.issue 1 0x060000000000000000000000#96] ∧ 1 < s.tasks.length ∧ s.waitOf 1 = none ∧
      decodeWord 0x060000000000000000000000#96 = .ok (.enable 0) := ⟨rfl, by decide, rfl, rfl⟩

theorem witness_FetchWordIsTheNextCommand :
    decodeTableWord 96 0x060000000000000000000000 = some (.enable 0) := rfl

/-- Every operand at the largest value its field holds. -/
theorem witness_DecodeOfEncode :
    (Instr.create .grbw 255 4294967295 4294967295).WellFormed ∧
    (Instr.setPixel 255 4294967295 ⟨0xFF, 0xFF, 0xFF, 0xFF⟩).WellFormed ∧ (Instr.clear 255).WellFormed ∧
    (Instr.refresh 255).WellFormed ∧ (Instr.refreshWait 255 4294967295).WellFormed ∧
    (Instr.enable 255).WellFormed ∧ (Instr.disable 255).WellFormed ∧ (Instr.destroy 255).WellFormed := by decide

theorem witness_LegalWordIsEncodedCommand :
    decodeWord 0x010001FFFFFFFFFFFFFFFFFF#96 = .ok (.create .grbw 255 4294967295 4294967295) := rfl

theorem witness_DecoderAgreesWithOpcodeTable :
    (⟨"CREATE", 0x010000000000000000000000#96, 0xFFFFFE000000000000000000#96⟩ : OpcodeRow) ∈ opcodeRows := by
  decide

theorem witness_IllegalWordIsAnsweredOnly :
    illegalWord 0x010002080000000100989680#96 = true ∧ 1 < (block red none []).tasks.length ∧
      (block red none []).waitOf 1 = none := by decide

theorem witness_ResponseWordHoldsCodeAndHandle : 255 < 256 ∧ ResultCode.ok.number = ResultCode.ok.number := by
  decide

/-- The whole pool, at the least resolution CREATE accepts. -/
theorem witness_CreateInstallsStrip :
    let s := State.powerOn small (by decide)
    s.issuer < s.tasks.length ∧ 1 ≤ 4 ∧ 4 * channelsOf .grbw ≤ s.poolFree ∧ 0 < s.slots.length ∧
      s.stripAt 0 = none ∧ (∀ k < 0, (s.stripAt k).isSome = true) ∧
      (Profile.ofResolution s.config 3333334).Realisable s.config.durMax ∧
      ∀ st ∈ s.liveStrips, st.gpio ≠ 8 := by decide

/-- The same with a strip on another pin in slot 0. -/
theorem witness_CreateInstallsStrip_second :
    let s := block red none []
    s.issuer < s.tasks.length ∧ 1 ≤ 1 ∧ 1 * channelsOf .rgb ≤ s.poolFree ∧ 1 < s.slots.length ∧
      s.stripAt 1 = none ∧ (∀ k < 1, (s.stripAt k).isSome = true) ∧
      (Profile.ofResolution s.config 819187499).Realisable s.config.durMax ∧
      ∀ st ∈ s.liveStrips, st.gpio ≠ 9 := by decide

/-- All slots Live: no channel is free. -/
def fullBlock : State := { block red none [] with slots := [some red, some { red with gpio := 9 }], poolFree := 10 }

theorem witness_CreateReportsFirstFailure :
    let s := State.powerOn small (by decide)
    (s.issuer < s.tasks.length ∧ s.poolFree < 6 * channelsOf .rgb ∧ 4 * channelsOf .grbw ≤ s.poolFree ∧
      ¬ (Profile.ofResolution s.config 3333333).Realisable s.config.durMax) ∧
    fullBlock.issuer < fullBlock.tasks.length ∧ 1 * channelsOf .rgb ≤ fullBlock.poolFree ∧
      ∀ k < fullBlock.slots.length, (fullBlock.stripAt k).isSome = true := by decide

/-- Both ends of the accepted range and the first value outside each. -/
theorem witness_CreateAcceptsResolutionsInRange :
    let s := State.powerOn small (by decide)
    (s.issuer < s.tasks.length ∧ s.config.Nominal ∧ 1 ≤ 1 ∧ 1 * channelsOf .rgb ≤ s.poolFree ∧
      0 < s.slots.length ∧ s.stripAt 0 = none ∧ (∀ k < 0, (s.stripAt k).isSome = true) ∧
      ∀ st ∈ s.liveStrips, st.gpio ≠ 8) ∧
    (3333334 ≤ 3333334 ∧ 3333334 ≤ 819187499) ∧ (3333334 ≤ 819187499 ∧ 819187499 ≤ 819187499) ∧
    (3333333 < 3333334 ∨ 819187499 < 3333333) ∧ (819187500 < 3333334 ∨ 819187499 < 819187500) := by decide

theorem witness_CreateOnPinInUseIsRefused :
    let s := block red none []
    1 ≤ 1 ∧ 1 * channelsOf .rgb ≤ s.poolFree ∧ 1 < s.slots.length ∧ s.stripAt 1 = none ∧
      (Profile.ofResolution s.config 10000000).Realisable s.config.durMax ∧
      ∃ st ∈ s.liveStrips, st.gpio = 8 := by decide

theorem witness_SetPixelStoresTheSample :
    let s := block { red with format := .grbw } none []
    s.issuer < s.tasks.length ∧ s.stripAt 0 = some { red with format := .grbw } ∧
      Memory.wf ({ red with format := .grbw } : Strip).fb ∧ 0 < red.ledCount ∧
      ({ red with format := .grbw } : Strip).channels = 4 := by decide

theorem witness_SetPixelOutOfRangeWritesNothing :
    let s := block red none []
    s.issuer < s.tasks.length ∧ s.stripAt 0 = some red ∧ red.ledCount ≤ 1 ∧ 1 ≤ red.ledCount := by decide

theorem witness_ClearZeroesTheBuffer :
    let s := block red none []
    s.issuer < s.tasks.length ∧ s.stripAt 0 = some red := by decide

theorem witness_ClearIsEveryPixelZeroed :
    (block red none []).Inv ∧ (block red none []).stripAt 0 = some red ∧ [0].Perm (List.range red.ledCount) :=
  ⟨block_inv red_ok rfl (by simp), rfl, List.Perm.refl _⟩

/-- Accepted; rejected because stopped; rejected because full. -/
theorem witness_RefreshQueuesOneTransmission :
    ((block (queued 1) none []).issuer < (block (queued 1) none []).tasks.length ∧
      (block (queued 1) none []).stripAt 0 = some (queued 1) ∧ (queued 1).enabled = true ∧
      (queued 1).occupancy ≠ small.queueDepth) ∧
    ((block red none []).stripAt 0 = some red ∧ red.enabled = false) ∧
    ((block (queued 2) none []).stripAt 0 = some (queued 2) ∧ (queued 2).occupancy = small.queueDepth) := by
  decide

theorem witness_RefreshesUpToTheQueueDepth :
    let s := block started none []
    0 < 256 ∧ s.stripAt 0 = some started ∧ started.enabled = true ∧ started.occupancy = 0 ∧
      1 < s.tasks.length ∧ s.waitOf 1 = none ∧
      ∀ m ∈ ([.issue 1 (encode (.refresh 0)), .txStart 0, .encStep 0, .issue 1 (encode (.refresh 0)),
          .seqStep 0, .issue 1 (encode (.refresh 0))] : List Move),
        m = .issue 1 (encode (.refresh 0)) ∨ m = .txStart 0 ∨ m = .encStep 0 ∨ m = .seqStep 0 := by decide

/-- Accepted; rejected because stopped; rejected because full. -/
theorem witness_RefreshWaitQueuesAndWaits :
    ((block started none []).issuer < (block started none []).tasks.length ∧
      (block started none []).stripAt 0 = some started ∧ started.enabled = true ∧
      started.occupancy ≠ small.queueDepth) ∧
    ((block red none []).stripAt 0 = some red ∧ red.enabled = false) ∧
    ((block (queued 2) none []).stripAt 0 = some (queued 2) ∧ (queued 2).occupancy = small.queueDepth) := by
  decide

/-- A wait at occupancy 0, and one at occupancy 1. -/
theorem witness_WaitEndsByCompletionOrTimeout :
    ((block started (some ⟨0, 100⟩) []).waitOf 0 = some ⟨0, 100⟩ ∧
      (block started (some ⟨0, 100⟩) []).stripAt 0 = some started ∧ started.occupancy = 0) ∧
    ((block (queued 1) (some ⟨0, 100⟩) []).waitOf 0 = some ⟨0, 100⟩ ∧
      (block (queued 1) (some ⟨0, 100⟩) []).stripAt 0 = some (queued 1) ∧ 0 < (queued 1).occupancy) := by decide

theorem witness_EnableStartsTheOutputStage :
    ((block red none []).issuer < (block red none []).tasks.length ∧ (block red none []).stripAt 0 = some red ∧
      red.enabled = false) ∧
    ((block started none []).stripAt 0 = some started ∧ started.enabled = true) := by decide

theorem witness_DisableStopsAnIdleOutputStage :
    ((block started none []).issuer < (block started none []).tasks.length ∧
      (block started none []).stripAt 0 = some started ∧ started.enabled = true ∧ started.occupancy = 0) ∧
    ((block red none []).stripAt 0 = some red ∧ red.enabled = false) ∧
    ((block (queued 1) none []).stripAt 0 = some (queued 1) ∧ 0 < (queued 1).occupancy) := by decide

theorem witness_DestroyReleasesAnIdleStrip :
    ((block red none []).issuer < (block red none []).tasks.length ∧ (block red none []).stripAt 0 = some red ∧
      red.occupancy = 0 ∧ ∀ task ∈ (block red none []).tasks, ∀ w ∈ task.wait, w.h ≠ 0) ∧
    ((block (queued 1) none []).stripAt 0 = some (queued 1) ∧ 0 < (queued 1).occupancy ∧
      ∀ task ∈ (block (queued 1) none []).tasks, ∀ w ∈ task.wait, w.h ≠ 0) := by decide

/-- A handle of an Absent slot, one past the last slot, and a wait whose strip is gone. -/
theorem witness_CommandWithoutLiveStripIsRefused :
    (handleOf (.destroy 1) = some 1 ∧ (block red none []).stripAt 1 = none) ∧
    (handleOf (.refresh 2) = some 2 ∧ (block red none []).stripAt 2 = none) ∧
    ((block red (some ⟨1, 100⟩) []).waitOf 0 = some ⟨1, 100⟩ ∧
      (block red (some ⟨1, 100⟩) []).stripAt 1 = none) := by decide

/-- An idle strip, and a busy one. -/
theorem witness_DestroyUnderAWaitIsRefused :
    ((block started (some ⟨0, 100⟩) []).stripAt 0 = some started ∧ started.occupancy = 0 ∧
      ∃ task ∈ (block started (some ⟨0, 100⟩) []).tasks, ∃ w ∈ task.wait, w.h = 0) ∧
    ((block (queued 1) (some ⟨0, 100⟩) []).stripAt 0 = some (queued 1) ∧ 0 < (queued 1).occupancy ∧
      ∃ task ∈ (block (queued 1) (some ⟨0, 100⟩) []).tasks, ∃ w ∈ task.wait, w.h = 0) := by decide

/-- A rejected REFRESH, and a wait that times out. -/
theorem witness_ErrorResponseMeansNothingChanged :
    (∃ t, step (block red none [.issue 0 0x040000000000000000000000#96]) = .next t ∧
      t.responsesOf 0 = [] ++ [responseWord .transmitError 0]) ∧
    (∃ t, step (block (queued 1) (some ⟨0, 100⟩) [.waitTimeout 0]) = .next t ∧
      t.responsesOf 0 = [] ++ [responseWord .timeoutError 0]) ∧
    (responseWord .transmitError 0).extractLsb' 0 8 ≠ 0 ∧ (responseWord .transmitError 0).extractLsb' 0 8 ≠ 5 ∧
    (responseWord .timeoutError 0).extractLsb' 0 8 = 5 :=
  ⟨⟨_, rfl, rfl⟩, ⟨_, rfl, rfl⟩, by decide, by decide, by decide⟩

/-- Each of the three breaches. -/
theorem witness_OnlyTheHostsBreachesStopTheMachine :
    ((block red none [.issue 0 0x080100000000000000000000#96]).Inv ∧
      step (block red none [.issue 0 0x080100000000000000000000#96]) = .refused (.destroyOfAbsent 1)) ∧
    ((block started (some ⟨0, 100⟩) [.issue 1 0x080000000000000000000000#96]).Inv ∧
      step (block started (some ⟨0, 100⟩) [.issue 1 0x080000000000000000000000#96]) =
        .refused (.destroyWhileWaiting 0)) ∧
    ((block red none [.issue 0 0x010000080000000100989680#96]).Inv ∧
      step (block red none [.issue 0 0x010000080000000100989680#96]) = .refused (.pinInUse 8)) :=
  ⟨⟨block_inv red_ok rfl (by simp), rfl⟩, ⟨block_inv started_ok rfl (by simp), rfl⟩,
    ⟨block_inv red_ok rfl (by simp), rfl⟩⟩

theorem witness_BitDescriptors : Config.reference.Nominal := by decide

theorem witness_ResetDescriptor : small.Nominal := by decide

theorem witness_TickCountsExactAtMultiplesOfTenMegahertz : Config.reference.Nominal := by decide

theorem witness_EncodeByteIsInjective :
    Config.reference.Nominal ∧
      (Profile.ofResolution Config.reference 3333334).Realisable Config.reference.durMax := by decide

theorem witness_DescriptorWordHoldsTheQuad :
    let d : Descriptor := ⟨.high, 32767, .low, 32767⟩
    d.durationA ≤ 32767 ∧ d.durationB ≤ 32767 := by decide

theorem witness_EncodeByteIsMsbFirst : 0 ≤ 7 ∧ 7 ≤ 7 := by decide

theorem witness_FrameHasItsResetOnlyAtTheEnd : 1 < [(0x01 : Byte), 0xFE].length ∧ 7 < 8 := by decide

/-- Exactly 8 places free, one fewer, and nothing in flight. -/
theorem witness_EncStepEncodesWholeBytes :
    ((block (flying ⟨.encodingData, 2⟩ (List.replicate 12 (zeroBit p10))) none []).stripAt 0 =
        some (flying ⟨.encodingData, 2⟩ (List.replicate 12 (zeroBit p10))) ∧
      (flying ⟨.encodingData, 2⟩ (List.replicate 12 (zeroBit p10))).active = true ∧
      (flying ⟨.encodingData, 2⟩ (List.replicate 12 (zeroBit p10))).symmem.length + 8 ≤ small.memSymbols ∧
      1 = min (red.fbLen - 2) ((small.memSymbols - 12) / 8)) ∧
    (small.memSymbols < (flying ⟨.encodingData, 2⟩ (List.replicate 13 (zeroBit p10))).symmem.length + 8 ∧
      (flying ⟨.encodingData, 2⟩ (List.replicate 13 (zeroBit p10))).enc.state = .encodingData) ∧
    (red.active = false ∧ red.enc.state = .encodingData) := by decide

/-- One place free, none free, Complete, and nothing in flight. -/
theorem witness_EncStepPushesTheReset :
    ((flying ⟨.encodingReset, 3⟩ (List.replicate 19 (zeroBit p10))).enc.state = .encodingReset ∧
      (flying ⟨.encodingReset, 3⟩ (List.replicate 19 (zeroBit p10))).active = true ∧
      (flying ⟨.encodingReset, 3⟩ (List.replicate 19 (zeroBit p10))).symmem.length < small.memSymbols) ∧
    small.memSymbols ≤ (flying ⟨.encodingReset, 3⟩ (List.replicate 20 (zeroBit p10))).symmem.length ∧
    sent.enc.state = .complete ∧
    ((block red none []).stripAt 0 = some red ∧ red.active = false) := by decide

/-- A step of the encoder, of a slot that is Live before and after. -/
theorem witness_EncoderTransitions :
    ∃ t st', step (block (flying ⟨.encodingData, 2⟩ []) none [.encStep 0]) = .next t ∧
      (block (flying ⟨.encodingData, 2⟩ []) none [.encStep 0]).stripAt 0 = some (flying ⟨.encodingData, 2⟩ []) ∧
      t.stripAt 0 = some st' ∧ st'.enc.state = .encodingReset :=
  ⟨_, _, rfl, rfl, rfl, rfl⟩

/-- V16 with 64 places: two ENC_STEPs, a SEQ_STEP between them. -/
theorem witness_ChunkedEncoderPushesTheFrame :
    ∃ pushed st', ChunkedRun 64 (flying ⟨.complete, 3⟩ []).encReset pushed st' ∧
      st'.enc.state = .complete :=
  ⟨([] ++ encodeBytes p10 [0xFF, 0, 0]) ++ [resetPulse p10],
    flying ⟨.complete, 3⟩ ((encodeBytes p10 [0xFF, 0, 0]).drop 1 ++ [resetPulse p10]),
    .push (st₁ := flying ⟨.encodingReset, 3⟩ ((encodeBytes p10 [0xFF, 0, 0]).drop 1)) (status := .complete)
      (.pop (st₁ := flying ⟨.encodingReset, 3⟩ (encodeBytes p10 [0xFF, 0, 0])) (d := oneBit p10)
        (.push (st₁ := flying ⟨.encodingData, 0⟩ []) (status := .moreData) (.start _) (by decide) rfl rfl) rfl)
      (by decide) rfl rfl, rfl⟩

/-- A queued transmission; nothing queued. -/
theorem witness_TxStartTakesOneTransmission :
    ((block (queued 1) none []).stripAt 0 = some (queued 1) ∧ (queued 1).enabled = true ∧
      (queued 1).active = false ∧ 0 < (queued 1).pending) ∧
    (red.enabled = false ∧ sending.active = true ∧ started.pending = 0) := by decide

theorem witness_SeqStepEmitsOneDescriptor :
    (block sending none []).Inv ∧ (block sending none []).stripAt 0 = some sending ∧ sending.active = true ∧
      sending.symmem = oneBit p10 :: [] ∧ sent.symmem = [] ∧ red.active = false :=
  ⟨block_inv sending_ok rfl (by simp), rfl, rfl, rfl, rfl, rfl⟩

theorem witness_TxDoneEndsTheTransmission :
    (block sent none []).Inv ∧ (block sent none []).stripAt 0 = some sent ∧ sent.active = true ∧
      sent.enc.state = .complete ∧ sent.symmem = [] ∧ red.active = false ∧ sending.enc.state ≠ .complete ∧
      sending.symmem ≠ [] :=
  ⟨block_inv sent_ok rfl (by simp), rfl, rfl, rfl, rfl, rfl, by decide, by decide⟩

/-- Each step of a strip, and a strip on which no step is enabled. -/
theorem witness_InternalStepsReportNothing :
    internalOf 0 (.encStep 0) ∧
    ∀ st, (block red none []).stripAt 0 = some st → st.txStartEnabled = false ∧
      st.encEnabled small.memSymbols = false ∧ (st.active = false ∨ st.symmem = []) ∧
      st.txDoneEnabled = false :=
  ⟨.inr (.inl rfl), fun st h => by cases h; decide⟩

/-- With a descriptor in symbol memory, and with none. -/
theorem witness_TransmissionAlwaysProgresses :
    ((block sending none []).Inv ∧ (block sending none []).stripAt 0 = some sending ∧ sending.active = true) ∧
    ((block sent none []).Inv ∧ (block sent none []).stripAt 0 = some sent ∧ sent.active = true ∧
      sent.symmem = []) :=
  ⟨⟨block_inv sending_ok rfl (by simp), rfl, rfl⟩, block_inv sent_ok rfl (by simp), rfl, rfl, rfl⟩

theorem witness_TransmissionCanComplete :
    (block sending none []).Inv ∧ (block sending none []).stripAt 0 = some sending ∧ sending.active = true :=
  witness_TransmissionAlwaysProgresses.1

/-- `n` steps with the strip of slot `h` in flight and its buffer `fb` all along, if they are that. -/
def flight (h : Nat) (fb : Memory) : Nat → State → Option State
  | 0, s => if (s.stripAt h).any (fun st => st.active && decide (st.fb = fb)) then some s else none
  | n + 1, s =>
    match flight h fb n s with
    | none => none
    | some t =>
      match step t with
      | .next u => if (u.stripAt h).any (fun st => st.active && decide (st.fb = fb)) then some u else none
      | .fault _ => none
      | .refused _ => none

theorem transmitting_of_flight {h : Nat} {fb : Memory} {n : Nat} {s t : State}
    (e : flight h fb n s = some t) : Transmitting h fb s t := by
  have strip_of : ∀ {u : State}, (u.stripAt h).any (fun st => st.active && decide (st.fb = fb)) = true →
      ∃ st, u.stripAt h = some st ∧ st.active = true ∧ st.fb = fb := by
    intro u hu
    cases hs : u.stripAt h with
    | none => simp [hs] at hu
    | some st => exact ⟨st, rfl, by simpa [hs] using hu⟩
  induction n generalizing t with
  | zero =>
    simp only [flight] at e
    split at e
    · next hu =>
      cases e
      obtain ⟨st, h1, h2, h3⟩ := strip_of hu
      exact .start h1 h2 h3
    · cases e
  | succ n ih =>
    simp only [flight] at e
    split at e
    · cases e
    · next m hm =>
      split at e
      · next u hu =>
        split at e
        · next hok =>
          cases e
          obtain ⟨st, h1, h2, h3⟩ := strip_of hok
          exact .step (ih hm) hu h1 h2 h3
        · cases e
      · cases e
      · cases e

/-- TX_START and then the whole of V50, up to TX_DONE. -/
theorem witness_TransmissionPutsTheFrameOnTheWire :
    let s := block (queued 1) none
      ([.txStart 0, .encStep 0, .seqStep 0, .seqStep 0, .seqStep 0, .seqStep 0, .encStep 0, .seqStep 0,
        .encStep 0] ++ List.replicate 20 (.seqStep 0))
    ∃ s₁ t st', s.Inv ∧ s.stripAt 0 = some (queued 1) ∧ s.nextMove = .txStart 0 ∧
      (queued 1).txStartEnabled = true ∧ step s = .next s₁ ∧ Transmitting 0 (queued 1).fb s₁ t ∧
      t.stripAt 0 = some st' ∧ st'.txDoneEnabled = true :=
  ⟨_, _, _, block_inv queued_ok rfl (by simp), rfl, rfl, rfl, rfl,
    transmitting_of_flight (n := 28) rfl, rfl, rfl⟩

theorem witness_TransmissionSize : p10.t0h + p10.t0l = 12 ∧ p10.t1h + p10.t1l = 12 := by decide

theorem witness_NormMergesEqualLevels :
    (normTrace [⟨.high, 3, 10000000⟩, ⟨.low, 9, 10000000⟩, ⟨.low, 400, 10000000⟩])[0]? =
        some ⟨.high, 3, 10000000⟩ ∧
      (normTrace [⟨.high, 3, 10000000⟩, ⟨.low, 9, 10000000⟩, ⟨.low, 400, 10000000⟩])[0 + 1]? =
        some ⟨.low, 409, 10000000⟩ := by decide

theorem witness_QuiescentStateHasNoInternalStep :
    (block started none []).Inv ∧ (block started none []).Quiescent ∧ moveIsIssue (.txStart 0) = false :=
  ⟨block_inv started_ok rfl (by simp), by decide, rfl⟩

theorem witness_StepKeepsInvariant :
    (block (queued 1) none [.txStart 0]).Inv ∧ ∃ t, step (block (queued 1) none [.txStart 0]) = .next t :=
  ⟨block_inv queued_ok rfl (by simp), _, rfl⟩

theorem witness_WireIsWrittenOnlyByItsSequencer :
    (block sending none [.seqStep 0]).Inv ∧
      ∃ t, step (block sending none [.seqStep 0]) = .next t ∧
        t.wire 8 ≠ (block sending none [.seqStep 0]).wire 8 :=
  ⟨block_inv sending_ok rfl (by simp), _, rfl, by decide⟩

theorem witness_SlotsAreIsolated :
    ∃ t, step (block started none [.issue 1 0x010000090000000100989680#96]) = .next t ∧
      t.stripAt 1 ≠ (block started none [.issue 1 0x010000090000000100989680#96]).stripAt 1 :=
  ⟨_, rfl, by decide⟩

theorem witness_FrameBufferIsWrittenOnlyBySetPixelAndClear :
    ∃ t st', step (block red none [.issue 0 0x030000000000000000000000#96]) = .next t ∧
      (block red none [.issue 0 0x030000000000000000000000#96]).stripAt 0 = some red ∧
      t.stripAt 0 = some st' ∧ st'.fb ≠ red.fb :=
  ⟨_, _, rfl, rfl, rfl, by decide⟩

theorem witness_ConfigurationIsReadOnly :
    ∃ t st', step (block red none [.issue 0 0x060000000000000000000000#96]) = .next t ∧
      (block red none [.issue 0 0x060000000000000000000000#96]).stripAt 0 = some red ∧
      t.stripAt 0 = some st' ∧ st' = started :=
  ⟨_, _, rfl, rfl, rfl, rfl⟩

/-- Into flight; out of it; and one descriptor to the wire. -/
theorem witness_NoTransmissionIsCancelled :
    (∃ t, step (block (queued 1) none [.txStart 0]) = .next t ∧ 0 < (queued 1).occupancy ∧
      (block (queued 1) none [.txStart 0]).stripAt 0 = some (queued 1)) ∧
    (∃ t, step (block sent none [.txDone 0]) = .next t ∧ 0 < sent.occupancy ∧
      (block sent none [.txDone 0]).stripAt 0 = some sent) ∧
    (∃ t, step (block sending none [.seqStep 0]) = .next t ∧ 0 < sending.occupancy ∧
      (block sending none [.seqStep 0]).stripAt 0 = some sending) :=
  ⟨⟨_, rfl, by decide, rfl⟩, ⟨_, rfl, by decide, rfl⟩, ⟨_, rfl, by decide, rfl⟩⟩

/-- In EncodingData with the buffer exhausted by the step, with more to come, and in EncodingReset. -/
theorem witness_EncStepReturnsItsStatus :
    ((block (flying ⟨.encodingData, 2⟩ []) none []).stripAt 0 = some (flying ⟨.encodingData, 2⟩ []) ∧
      (flying ⟨.encodingData, 2⟩ []).encEnabled small.memSymbols = true) ∧
    ((block (flying ⟨.encodingData, 0⟩ []) none []).stripAt 0 = some (flying ⟨.encodingData, 0⟩ []) ∧
      (flying ⟨.encodingData, 0⟩ []).encEnabled small.memSymbols = true) ∧
    ((block (flying ⟨.encodingReset, 3⟩ []) none []).stripAt 0 = some (flying ⟨.encodingReset, 3⟩ []) ∧
      (flying ⟨.encodingReset, 3⟩ []).encEnabled small.memSymbols = true) := by decide

/-- A weakly fair execution from a state with a transmission queued. -/
theorem witness_AcceptedTransmissionsComplete :
    ∃ states moves, IsExecution states moves ∧ WeaklyFair states moves ∧ (states 0).Inv ∧
      (states 0).stripAt 0 = some (queued 1) ∧ (queued 1).occupancy = 1 := by
  obtain ⟨states, moves, e, hx, hf, -, -⟩ := exists_weaklyFair (block (queued 1) none [])
  exact ⟨states, moves, hx, hf, by rw [e]; exact block_inv queued_ok rfl (by simp),
    by rw [e]; rfl, rfl⟩

/-- The same with a silent host, and no task waiting at any time. -/
theorem witness_FairSilentHostReachesQuiescence :
    ∃ states moves, IsExecution states moves ∧ WeaklyFair states moves ∧ (states 0).Inv ∧
      (∀ k, 0 ≤ k → moveIsIssue (moves k) = false) ∧
      (states 0).stripAt 0 = some (queued 1) ∧ ∀ task k, ∃ j, k ≤ j ∧ (states j).waitOf task = none := by
  obtain ⟨states, moves, e, hx, hf, hq, ht⟩ := exists_weaklyFair (block (queued 1) none [])
  refine ⟨states, moves, hx, hf, by rw [e]; exact block_inv queued_ok rfl (by simp),
    fun k _ => hq k, by rw [e]; rfl, fun task k => ⟨k, Nat.le_refl k, ?_⟩⟩
  rw [State.waitOf, ht k]
  match task with
  | 0 => rfl
  | 1 => rfl
  | _ + 2 => rfl

end Sys2Proof.Tests
end

/-! PROOFS. The bit descriptors of the encoder (40_encoder.md). -/

namespace Sys2Proof.Machine

/-- A multiple of 100 ns is a whole number of ticks at a multiple of 10 MHz (R74): nothing is rounded. -/
theorem ticks_hundred_mul (n k : Nat) : ticks (100 * n) (10000000 * k) = n * k := by
  have hprod : 100 * n * (10000000 * k) = 1000000000 * (n * k) := Nat.mul_mul_mul_comm ..
  rw [ticks, hprod, Nat.mul_div_cancel_left _ (by decide)]

/-- The tick registers of a strip with the document's durations, at a multiple of 10 MHz (R74, R203). -/
theorem ofResolution_of_nominal {c : Config} (hc : c.Nominal) (k : Nat) :
    Profile.ofResolution c (10000000 * k) = ⟨3 * k, 9 * k, 6 * k, 6 * k, 800 * k⟩ := by
  obtain ⟨hzeroH, hzeroL, honeH, honeL, hreset, -⟩ := hc
  simp only [Profile.ofResolution, hzeroH, hzeroL, honeH, honeL, hreset, Profile.mk.injEq]
  exact ⟨ticks_hundred_mul 3 k, ticks_hundred_mul 9 k, ticks_hundred_mul 6 k, ticks_hundred_mul 6 k,
    ticks_hundred_mul 800 k⟩

/-- Settles O30: the descriptors and the choice are the definitions; the values at 10 MHz are those of the profile
there. -/
theorem bitDescriptors : Obligations.BitDescriptors := by
  refine ⟨fun p => ⟨rfl, rfl, rfl, rfl⟩, fun c hc => ?_⟩
  have hprofile : Profile.ofResolution c 10000000 = ⟨3, 9, 6, 6, 800⟩ := ofResolution_of_nominal hc 1
  rw [hprofile]
  exact ⟨rfl, rfl⟩

end Sys2Proof.Machine

/-! PROOFS. The encoder's functions on a byte and on a frame (40_encoder.md). -/

namespace Sys2Proof.Machine

/-- The recursion of R93; RESET stays at the end of the tail's frame. -/
theorem encodeFrame_cons (p : Profile) (b : Byte) (bs : List Byte) :
    encodeFrame p (b :: bs) = encodeByte p b ++ encodeFrame p bs := by
  rw [encodeFrame, encodeFrame, encodeBytes_cons, List.append_assoc]

@[simp] theorem encodeFrame_length (p : Profile) (bs : List Byte) :
    (encodeFrame p bs).length = 8 * bs.length + 1 := by
  rw [encodeFrame, List.length_append, encodeBytes_length, List.length_singleton]

/-- Settles O34: element `7 - i` is for bit `7 - (7 - i)`, which is bit `i`. -/
theorem encodeByteIsMsbFirst : Obligations.EncodeByteIsMsbFirst := by
  refine fun p v => ⟨encodeByte_length p v, fun i hi => ?_⟩
  have hbit : 7 - (7 - i) = i := Nat.sub_sub_self hi
  rw [encodeByte_getElem p v (show 7 - i < 8 by omega), hbit, encodeBit]

/-- Settles O36: the empty frame, the recursion over the bytes, and the length. -/
theorem encodeFrameIsBytesThenReset : Obligations.EncodeFrameIsBytesThenReset := by
  refine fun p => ⟨encodeFrame_nil p, encodeFrame_cons p, fun bs => ?_⟩
  rw [encodeFrame_length, Nat.mul_comm]

end Sys2Proof.Machine

/-! PROOFS. Commands and waits on a strip that is not Live (41_strip_ops.md). -/

namespace Sys2Proof.Machine

/-- A command that names a handle acts only through `onStrip`, so it looks its strip up first (R127). -/
theorem exec_eq_onStrip {i : Instr} {h : Nat} (hi : handleOf i = some h) (s : State) :
    ∃ k, exec i s = onStrip (if i = .destroy h then .destroyOfAbsent h else .noLiveStrip h) h s k := by
  cases i with
  | create format gpio n hz => cases hi
  | destroy h' => cases hi; rw [if_pos rfl]; exact ⟨_, rfl⟩
  | setPixel | clear | refresh | refreshWait | enable | disable =>
    cases hi; rw [if_neg Instr.noConfusion]; exact ⟨_, rfl⟩

/-- The [complete] alternative of a wait whose strip is gone. -/
theorem stepWaitComplete_dead {s : State} {t : Nat} {w : Waiting} (hw : s.waitOf t = some w)
    (hs : s.stripAt w.h = none) : stepWaitComplete t s = .refused (.waitOnAbsentStrip w.h) := by
  simp only [stepWaitComplete, hw, hs]

/-- The [timeout] alternative of a wait whose strip is gone. -/
theorem stepWaitTimeout_dead {s : State} {t : Nat} {w : Waiting} (hw : s.waitOf t = some w)
    (hs : s.stripAt w.h = none) : stepWaitTimeout t s = .refused (.waitOnAbsentStrip w.h) := by
  simp only [stepWaitTimeout, hw, hs]

/-- Settles O26: the look-up of the strip comes first in every command that names one, and in both alternatives
of a wait. -/
theorem commandWithoutLiveStripIsRefused : Obligations.CommandWithoutLiveStripIsRefused := by
  refine ⟨fun s i h hi hs => ?_,
    fun s t w hw hs => ⟨stepWaitComplete_dead hw hs, stepWaitTimeout_dead hw hs⟩⟩
  obtain ⟨k, hk⟩ := exec_eq_onStrip hi s
  rw [hk, onStrip_dead hs]

end Sys2Proof.Machine

/-! PROOFS. Error responses (R167): which steps give a task a word whose code is not Ok, and what else they do. -/

namespace Sys2Proof.Machine

/-- The code of a response word is its low byte (R86). -/
theorem responseWord_code (code : ResultCode) (handle : Nat) :
    (responseWord code handle).extractLsb' 0 8 = BitVec.ofNat 8 code.number := by
  rw [responseWord, BitVec.extractLsb'_append_eq_of_add_le (by decide), BitVec.extractLsb'_eq_self]

/-- A word with the code Ok is no error, whatever handle it carries (R86, R87). -/
theorem responseWord_ok_code (handle : Nat) : (responseWord .ok handle).extractLsb' 0 8 = 0 :=
  responseWord_code .ok handle

/-! ### Who has received what -/

section Received

variable {s u : State} {k task : Nat} {v w : ResponseWord}

/-- What a task has received depends on the tasks alone. -/
theorem State.responsesOf_congr (h : u.tasks = s.tasks) (k : Nat) : u.responsesOf k = s.responsesOf k := by
  simp only [State.responsesOf, h]

/-- What a task waits for depends on the tasks alone. -/
theorem State.waitOf_congr (h : u.tasks = s.tasks) (k : Nat) : u.waitOf k = s.waitOf k := by
  simp only [State.waitOf, h]

/-- A task that waits is there. -/
theorem State.waitOf_lt {x : Waiting} (hw : s.waitOf k = some x) : k < s.tasks.length := by
  obtain ⟨_, hk, -⟩ := Option.bind_eq_some_iff.mp hw
  exact (List.getElem?_eq_some_iff.mp hk).1

@[simp] theorem State.setWait_tasks_length (s : State) (k : Nat) (x : Option Waiting) :
    (s.setWait k x).tasks.length = s.tasks.length := List.length_modify ..

/-- A wait that begins or ends is no response. -/
@[simp] theorem State.setWait_responsesOf (s : State) (k : Nat) (x : Option Waiting) (task : Nat) :
    (s.setWait k x).responsesOf task = s.responsesOf task := by
  simp only [State.responsesOf, State.setWait_tasks, List.getElem?_modify]
  cases s.tasks[task]? with
  | none => rfl
  | some _ => by_cases h : k = task <;> simp [h]

/-- A wait that begins or ends is one task's. -/
theorem State.setWait_getElem_ne (h : task ≠ k) (x : Option Waiting) :
    (s.setWait k x).tasks[task]? = s.tasks[task]? :=
  List.getElem?_modify_ne _ _ h.symm

/-- Where a task's responses are as they were, it has received nothing. -/
theorem responsesOf_not_appended (hu : u.responsesOf task = s.responsesOf task) :
    u.responsesOf task ≠ s.responsesOf task ++ [w] := by
  rw [hu]
  exact fun h => List.cons_ne_nil w [] (List.self_eq_append_right.mp h)

/-- Where one response was given, it is the one its task has received. -/
theorem respond_received (hk : k < u.tasks.length) (hu : u.responsesOf task = s.responsesOf task)
    (hr : (u.respond k v).responsesOf task = s.responsesOf task ++ [w]) : task = k ∧ w = v := by
  rw [State.respond_responsesOf hk] at hr
  split at hr
  · next htask =>
    rw [hu] at hr
    exact ⟨htask, (List.singleton_inj.mp (List.append_cancel_left hr)).symm⟩
  · exact absurd hr (responsesOf_not_appended hu)

end Received

/-! ### The steps that report an error -/

/-- A command that gives a task an error response gave it to the executing task, and did nothing else (R167). -/
theorem exec_error_response {i : Instr} {s t : State} {task : Nat} {w : ResponseWord}
    (ht : s.issuer < s.tasks.length) (e : exec i s = .next t)
    (hr : t.responsesOf task = s.responsesOf task ++ [w]) (hw : w.extractLsb' 0 8 ≠ 0) :
    task = s.issuer ∧ t = s.respond task w := by
  have notOk : ∀ {u : State} {h : Nat}, u.tasks = s.tasks →
      (u.respond s.issuer (responseWord .ok h)).responsesOf task ≠ s.responsesOf task ++ [w] := by
    intro u h hu hr
    obtain ⟨-, rfl⟩ := respond_received (hu ▸ ht) (State.responsesOf_congr hu task) hr
    exact hw (responseWord_ok_code h)
  cases exec_cases e with
  | failed _ code _ =>
    obtain ⟨rfl, rfl⟩ := respond_received ht rfl hr
    exact ⟨rfl, rfl⟩
  | created => exact absurd hr (notOk rfl)
  | strip => exact absurd hr (notOk rfl)
  | destroyed => exact absurd hr (notOk rfl)
  | waits => exact absurd hr (responsesOf_not_appended (State.setWait_responsesOf ..))

/-- A move that gives a task an error response is the task's own issue of a word, or the timeout that ends its
wait; it does nothing else (R118, R167). -/
theorem runMove_error_response {m : Move} {s t : State} {task : Nat} {w : ResponseWord}
    (e : runMove m s = .next t) (hr : t.responsesOf task = s.responsesOf task ++ [w])
    (hw : w.extractLsb' 0 8 ≠ 0) :
    (s.waitOf task = none ∧ t = ({ s with issuer := task } : State).respond task w) ∨
      (task < s.tasks.length ∧ w = responseWord .timeoutError 0 ∧ t = s.endWait task .timeoutError) := by
  cases runMove_cases e with
  | illegal k _ hk hwait =>
    obtain ⟨rfl, rfl⟩ := respond_received hk rfl hr
    exact .inl ⟨hwait, rfl⟩
  | command k _ hk hwait i _ _ hx =>
    obtain ⟨rfl, ht⟩ := exec_error_response (s := { s with issuer := k }) hk hx hr hw
    exact .inl ⟨hwait, ht⟩
  | waitComplete k x _ hx =>
    have hk : k < (s.setWait k none).tasks.length := by simpa using State.waitOf_lt hx
    obtain ⟨-, rfl⟩ := respond_received hk (State.setWait_responsesOf ..) hr
    exact absurd (responseWord_ok_code 0) hw
  | waitTimeout k x _ hx =>
    have hk : k < (s.setWait k none).tasks.length := by simpa using State.waitOf_lt hx
    obtain ⟨rfl, hword⟩ := respond_received hk (State.setWait_responsesOf ..) hr
    exact .inr ⟨State.waitOf_lt hx, hword, rfl⟩
  | idle | txStart | enc | seq | txDone => exact absurd hr (responsesOf_not_appended rfl)

/-- Settles O28: the step was the task's own issue of a word, which only answered it, or the timeout that ended its
wait. -/
theorem errorResponseMeansNothingChanged : Obligations.ErrorResponseMeansNothingChanged := by
  intro s t task w e hr hw
  have hr' : t.responsesOf task = s.takeMove.responsesOf task ++ [w] := by
    rw [hr, State.responsesOf_congr s.takeMove_tasks]
  have hwaitOf : s.takeMove.waitOf task = s.waitOf task := State.waitOf_congr s.takeMove_tasks task
  rcases runMove_error_response e hr' hw with ⟨hwait, rfl⟩ | ⟨hk, rfl, rfl⟩
  · have hsame : (({ s.takeMove with issuer := task } : State).respond task w).waitOf task = s.waitOf task :=
      (State.respond_waitOf ..).trans hwaitOf
    refine ⟨s.takeMove_config, s.takeMove_slots, s.takeMove_wires, s.takeMove_poolFree, fun k hk => ?_,
      fun _ => hsame, fun _ => ?_⟩
    · rw [State.respond_getElem_ne hk, State.takeMove_tasks]
    · rw [hsame, ← hwaitOf, hwait]
  · refine ⟨s.takeMove_config, s.takeMove_slots, s.takeMove_wires, s.takeMove_poolFree, fun k hk => ?_,
      fun h => absurd (responseWord_code .timeoutError 0) h, fun _ => ?_⟩
    · rw [State.endWait, State.respond_getElem_ne hk, State.setWait_getElem_ne hk, State.takeMove_tasks]
    · rw [State.endWait, State.respond_waitOf, State.setWait_waitOf hk, if_pos rfl]

end Sys2Proof.Machine

/-! PROOFS. No fault, and no refusal but for a breach of the host's duties (R161, R163, R182). -/

namespace Sys2Proof.Machine

/-- The host issues `i` in `s` against its duties (R127, R182, U9): on a handle that names no Live strip, as a DESTROY
of a strip a task waits on, or as a CREATE on the pin of a Live strip. -/
def HostBreach (s : State) (i : Instr) : Prop :=
  (∃ h, handleOf i = some h ∧ s.stripAt h = none) ∨
    (∃ h, i = .destroy h ∧ ∃ task ∈ s.tasks, ∃ v ∈ task.wait, v.h = h) ∨
    ∃ format gpio n hz, i = .create format gpio n hz ∧ ∃ st ∈ s.liveStrips, st.gpio = gpio

/-- The machine goes on, or it refuses, which it does only under `breach`. -/
def GoesOnUnless (breach : Prop) (o : Host.Outcome State Fault Refusal) : Prop :=
  (∃ t, o = .next t) ∨ ((∃ r, o = .refused r) ∧ breach)

theorem goesOn_next {breach : Prop} (t : State) : GoesOnUnless breach (.next t) := .inl ⟨t, rfl⟩

theorem goesOn_refused {breach : Prop} (r : Refusal) (hb : breach) : GoesOnUnless breach (.refused r) :=
  .inr ⟨⟨r, rfl⟩, hb⟩

/-- Going on excludes a fault, and a refusal shows the breach. -/
theorem GoesOnUnless.stops {breach : Prop} {o : Host.Outcome State Fault Refusal} (h : GoesOnUnless breach o) :
    (∀ f, o ≠ .fault f) ∧ ∀ r, o = .refused r → breach := by
  obtain ⟨t, rfl⟩ | ⟨⟨r, rfl⟩, hb⟩ := h
  · exact ⟨nofun, nofun⟩
  · exact ⟨nofun, fun _ _ => hb⟩

theorem GoesOnUnless.imp {breach breach' : Prop} {o : Host.Outcome State Fault Refusal}
    (h : GoesOnUnless breach o) (f : breach → breach') : GoesOnUnless breach' o :=
  h.imp_right (And.imp_right f)

theorem State.waitedOn_eq_true {s : State} {h : Nat} :
    s.waitedOn h = true ↔ ∃ task ∈ s.tasks, ∃ w ∈ task.wait, w.h = h := by
  rw [← not_iff_not, Bool.not_eq_true, State.waitedOn_eq_false]
  push Not
  rfl

theorem State.pinInUse_eq_true {s : State} {g : Nat} :
    s.pinInUse g = true ↔ ∃ st ∈ s.liveStrips, st.gpio = g := by
  simp only [State.pinInUse, List.any_eq_true, beq_iff_eq]

/-- A command on a handle goes on if it does so on every Live strip. -/
theorem onStrip_goesOn {i : Instr} {h : Nat} (hi : handleOf i = some h) {s : State} {r : Refusal}
    {k : Strip → Host.Outcome State Fault Refusal} (hk : ∀ st, GoesOnUnless (HostBreach s i) (k st)) :
    GoesOnUnless (HostBreach s i) (onStrip r h s k) := by
  cases hs : s.stripAt h with
  | none => rw [onStrip_dead hs]; exact goesOn_refused r (.inl ⟨h, hi, hs⟩)
  | some st => rw [onStrip_live hs]; exact hk st

/-- A command goes on, in every state, unless the host issued it against its duties. -/
theorem exec_goesOn (i : Instr) (s : State) : GoesOnUnless (HostBreach s i) (exec i s) := by
  cases i with
  | create format gpio n hz =>
    rw [exec, execCreate]
    split
    · exact goesOn_next _
    · split
      · exact goesOn_next _
      · split
        · exact goesOn_next _
        · split
          · next hpin =>
            exact goesOn_refused _ (.inr (.inr ⟨format, gpio, n, hz, rfl, State.pinInUse_eq_true.mp hpin⟩))
          · exact goesOn_next _
  | setPixel h index sample =>
    refine onStrip_goesOn rfl fun st => ?_
    split
    · exact goesOn_next _
    · next hi =>
      have hinside : offset index st.channels + (sampleBytes st.format sample).length ≤ st.fbLen := by
        rw [sampleBytes_length]
        exact pixel_inside (Nat.lt_of_not_le hi)
      obtain ⟨m, hm⟩ := Strip.fbStore_inside _ st _ hinside
      rw [hm]
      exact goesOn_next _
  | destroy h =>
    refine onStrip_goesOn rfl fun st => ?_
    split
    · next hw => exact goesOn_refused _ (.inr (.inl ⟨h, rfl, State.waitedOn_eq_true.mp hw⟩))
    · split <;> exact goesOn_next _
  | clear => exact onStrip_goesOn rfl fun _ => goesOn_next _
  | refresh | refreshWait | enable | disable =>
    refine onStrip_goesOn rfl fun st => ?_
    split <;> exact goesOn_next _

/-- The issue of a word goes on unless the word is a command the host issued against its duties. -/
theorem issueWord_goesOn (t : Nat) (w : CommandWord) (s : State) :
    GoesOnUnless (∃ i, decodeWord w = .ok i ∧ HostBreach s i) (issueWord t w s) := by
  unfold issueWord
  split
  · exact goesOn_next _
  · split
    · exact goesOn_next _
    · split
      · exact goesOn_next _
      · next i hi => exact (exec_goesOn i { s with issuer := t }).imp fun hb => ⟨i, hi, hb⟩

/-- In a good state a task waits on a Live strip (R127, U3). -/
theorem State.Inv.wait_live {s : State} (h : s.Inv) {t : Nat} {w : Waiting} (hw : s.waitOf t = some w) :
    ∃ st, s.stripAt w.h = some st := by
  obtain ⟨task, htask, hwait⟩ := Option.bind_eq_some_iff.mp hw
  exact Option.isSome_iff_exists.mp (h.waits_live task (List.mem_of_getElem? htask) w hwait)

/-- In a good state either alternative of a wait goes on, enabled or not (R118). -/
theorem wait_goesOn {s : State} (h : s.Inv) {t : Nat} {m : Move} (hm : m = .waitComplete t ∨ m = .waitTimeout t)
    {breach : Prop} : GoesOnUnless breach (runMove m s) := by
  cases hw : s.waitOf t with
  | none =>
    rcases hm with rfl | rfl <;> simp only [runMove, stepWaitComplete, stepWaitTimeout, hw, goesOn_next]
  | some w =>
    obtain ⟨st, hs⟩ := h.wait_live hw
    rcases hm with rfl | rfl <;> simp only [runMove, stepWaitComplete, stepWaitTimeout, hw, hs] <;>
      split <;> exact goesOn_next _

/-- An internal step goes on, in every state (R161). -/
theorem internal_goesOn {h : Nat} {m : Move} (hm : internalOf h m) {s : State} {breach : Prop} :
    GoesOnUnless breach (runMove m s) :=
  let ⟨t, ht, _⟩ := runMove_internal hm s
  .inl ⟨t, ht⟩

/-- In a good state a move goes on unless it is a command the host issued against its duties. -/
theorem runMove_goesOn {s : State} (h : s.Inv) (m : Move) :
    GoesOnUnless (∃ t w i, m = .issue t w ∧ decodeWord w = .ok i ∧ HostBreach s i) (runMove m s) := by
  cases m with
  | issue t w => exact (issueWord_goesOn t w s).imp fun ⟨i, hi, hb⟩ => ⟨t, w, i, rfl, hi, hb⟩
  | waitComplete t => exact wait_goesOn h (.inl rfl)
  | waitTimeout t => exact wait_goesOn h (.inr rfl)
  | txStart h' => exact internal_goesOn (.inl rfl)
  | encStep h' => exact internal_goesOn (.inr (.inl rfl))
  | seqStep h' => exact internal_goesOn (.inr (.inr (.inl rfl)))
  | txDone h' => exact internal_goesOn (.inr (.inr (.inr rfl)))

/-- Which commands are breaches does not depend on the inputs still to come. -/
theorem hostBreach_takeMove {s : State} {i : Instr} : HostBreach s.takeMove i ↔ HostBreach s i := by
  simp only [HostBreach, State.takeMove_stripAt, State.takeMove_tasks,
    State.liveStrips_congr s.takeMove_slots]

/-- Settles O29: a step is its move, made in a state that is good because inputs are no part of the invariant. -/
theorem onlyTheHostsBreachesStopTheMachine : Obligations.OnlyTheHostsBreachesStopTheMachine := by
  intro s hs
  obtain ⟨hfault, hrefused⟩ := (runMove_goesOn hs.takeMove s.nextMove).stops
  refine ⟨hfault, fun r hr => ?_⟩
  obtain ⟨t, w, i, hmove, hi, hb⟩ := hrefused r hr
  exact ⟨t, w, i, hmove, hi, hostBreach_takeMove.mp hb⟩

end Sys2Proof.Machine

/-! PROOFS. The decoder and the encoder of command words (30_encoding.md section 2). -/

namespace Sys2Proof

section PackedFields

variable (op h c g a : Nat) (b : BitVec 32)

@[simp] theorem opField_packFields : opField (packFields op h c g a b) = op % 256 :=
  let ⟨hop, _⟩ := packFields_fields op h c g a b
  hop

@[simp] theorem hField_packFields : hField (packFields op h c g a b) = h % 256 :=
  let ⟨_, hh, _⟩ := packFields_fields op h c g a b
  hh

@[simp] theorem cField_packFields : cField (packFields op h c g a b) = c % 256 :=
  let ⟨_, _, hc, _⟩ := packFields_fields op h c g a b
  hc

@[simp] theorem gField_packFields : gField (packFields op h c g a b) = g % 256 :=
  let ⟨_, _, _, hg, _⟩ := packFields_fields op h c g a b
  hg

@[simp] theorem aField_packFields : aField (packFields op h c g a b) = a % 4294967296 :=
  let ⟨_, _, _, _, ha, _⟩ := packFields_fields op h c g a b
  ha

@[simp] theorem bField_packFields : bField (packFields op h c g a b) = b.toNat :=
  let ⟨_, _, _, _, _, hb⟩ := packFields_fields op h c g a b
  hb

end PackedFields

@[simp] theorem formatOfCode_code (f : ChannelFormat) : formatOfCode f.code = f := by cases f <;> rfl

theorem ChannelFormat.code_lt (f : ChannelFormat) : f.code < 2 := by cases f <;> decide

theorem Fits8.mod_eq {n : Nat} (h : Fits8 n) : n % 256 = n := Nat.mod_eq_of_lt h

theorem Fits32.mod_eq {n : Nat} (h : Fits32 n) : n % 4294967296 = n := Nat.mod_eq_of_lt h

/-- Settles O6: the decoder reads back the fields the encoder packed, and the command's operands fit them. -/
theorem decodeOfEncode : Obligations.DecodeOfEncode := by
  intro i hi
  cases i with
  | create format gpio ledCount hz =>
    obtain ⟨hg, ha, hb⟩ := of_decide_eq_true hi
    have hc : format.code % 256 = format.code := Nat.mod_eq_of_lt (by have := format.code_lt; omega)
    simp [encode, decodeWord, unlessReserved, hc, format.code_lt, hg.mod_eq, ha.mod_eq, hb.mod_eq]
  | setPixel h index sample =>
    obtain ⟨hh, ha⟩ := of_decide_eq_true hi
    simp [encode, decodeWord, unlessReserved, packFields_sample, hh.mod_eq, ha.mod_eq]
  | refreshWait h timeoutMs =>
    obtain ⟨hh, ha⟩ := of_decide_eq_true hi
    simp [encode, decodeWord, unlessReserved, hh.mod_eq, ha.mod_eq]
  | clear h | refresh h | enable h | disable h | destroy h =>
    have hh : Fits8 h := of_decide_eq_true hi
    simp [encode, decodeWord, unlessReserved, hh.mod_eq]

/-! ### Words and the fields the decoder asks to be zero -/

/-- A command whose reserved fields are checked is legal iff they are zero (R84). -/
theorem unlessReserved_eq_ok {zero : Bool} {op : Nat} {i j : Instr} :
    unlessReserved zero op i = .ok j ↔ zero = true ∧ i = j := by
  cases zero <;> simp [unlessReserved]

theorem unlessReserved_eq_error {zero : Bool} {op : Nat} {i : Instr} :
    (∃ e, unlessReserved zero op i = .error e) ↔ zero = false := by
  cases zero <;> simp [unlessReserved]

theorem code_formatOfCode {c : Nat} (hc : c < 2) : (formatOfCode c).code = c := by
  interval_cases c <;> rfl

/-- A word with these fields is the fields packed (R80). -/
theorem packFields_eq {w : CommandWord} {op h c g a : Nat} {b : BitVec 32} (hop : opField w = op)
    (hh : hField w = h) (hc : cField w = c) (hg : gField w = g) (ha : aField w = a)
    (hb : bField w = b.toNat) : packFields op h c g a b = w := by
  have hb' : w.extractLsb' 0 32 = b := BitVec.eq_of_toNat_eq hb
  rw [← hop, ← hh, ← hc, ← hg, ← ha, ← hb']
  exact (word_eq_packFields w).symm

/-- Settles O7: the decoder's match fixes the opcode and the zero fields, and a word is its fields. -/
theorem legalWordIsEncodedCommand : Obligations.LegalWordIsEncodedCommand := by
  refine fun w i hd => ⟨decodeWord_wellFormed hd, ?_⟩
  have hb : bField w = (BitVec.ofNat 32 (bField w)).toNat := by simp [bField]
  unfold decodeWord at hd
  split at hd
  case h_9 => cases hd
  all_goals
    obtain ⟨hz, rfl⟩ := unlessReserved_eq_ok.mp hd
    simp only [Bool.and_eq_true, beq_iff_eq, decide_eq_true_eq] at hz
  case h_1 hop => exact packFields_eq hop hz.1 (code_formatOfCode hz.2).symm rfl rfl hb
  case h_2 hop =>
    exact packFields_eq hop rfl hz.1 hz.2 rfl (congrArg BitVec.toNat (packSample_sampleField w)).symm
  case h_5 hop =>
    obtain ⟨⟨hc, hg⟩, hb⟩ := hz
    exact packFields_eq hop rfl hc hg rfl hb
  all_goals
    next hop =>
    obtain ⟨⟨⟨hc, hg⟩, ha⟩, hb⟩ := hz
    exact packFields_eq hop rfl hc hg ha hb

/-! ### The opcode table -/

/-- A masked word equals a pattern iff it does field by field (R80, R81). -/
theorem OpcodeRow.selects_iff {r : OpcodeRow} {w : CommandWord} :
    r.selects w = true ↔
      opField w &&& opField r.mask = opField r.pattern ∧ hField w &&& hField r.mask = hField r.pattern ∧
      cField w &&& cField r.mask = cField r.pattern ∧ gField w &&& gField r.mask = gField r.pattern ∧
      aField w &&& aField r.mask = aField r.pattern ∧ bField w &&& bField r.mask = bField r.pattern := by
  simp only [OpcodeRow.selects, beq_iff_eq, opField, hField, cField, gField, aField, bField,
    ← BitVec.toNat_and, ← BitVec.extractLsb'_and]
  refine ⟨fun h => by simp only [h, and_self], fun ⟨hop, hh, hc, hg, ha, hb⟩ => ?_⟩
  rw [← packFields_eq hop hh hc hg ha hb]
  exact (word_eq_packFields r.pattern).symm

/-- The match and mask values of the table, field by field (R81): a mask has ones where the row fixes the word. -/
theorem opcodeRows_eq_packFields : opcodeRows =
    [⟨"CREATE", packFields 1 0 0 0 0 0, packFields 255 255 254 0 0 0⟩,
     ⟨"SET_PIXEL", packFields 2 0 0 0 0 0, packFields 255 0 255 255 0 0⟩,
     ⟨"CLEAR", packFields 3 0 0 0 0 0, packFields 255 0 255 255 4294967295 4294967295⟩,
     ⟨"REFRESH", packFields 4 0 0 0 0 0, packFields 255 0 255 255 4294967295 4294967295⟩,
     ⟨"REFRESH_WAIT", packFields 5 0 0 0 0 0, packFields 255 0 255 255 0 4294967295⟩,
     ⟨"ENABLE", packFields 6 0 0 0 0 0, packFields 255 0 255 255 4294967295 4294967295⟩,
     ⟨"DISABLE", packFields 7 0 0 0 0 0, packFields 255 0 255 255 4294967295 4294967295⟩,
     ⟨"DESTROY", packFields 8 0 0 0 0 0, packFields 255 0 255 255 4294967295 4294967295⟩] := by decide

/-- A mask of ones keeps a byte. -/
theorem toNat_and_255 (x : BitVec 8) : x.toNat &&& 255 = x.toNat :=
  (Nat.and_two_pow_sub_one_eq_mod _ 8).trans (Nat.mod_eq_of_lt x.isLt)

/-- A mask of ones keeps 32 bits. -/
theorem toNat_and_4294967295 (x : BitVec 32) : x.toNat &&& 4294967295 = x.toNat :=
  (Nat.and_two_pow_sub_one_eq_mod _ 32).trans (Nat.mod_eq_of_lt x.isLt)

/-- The mask of CREATE's field `c` leaves bit 0 out (R73, R81). -/
theorem cField_and_254 (w : CommandWord) : cField w &&& 254 = 0 ↔ cField w < 2 := by
  have : ∀ x : BitVec 8, x.toNat &&& 254 = 0 ↔ x.toNat < 2 := by decide
  exact this _

@[simp] theorem opField_and_255 (w : CommandWord) : opField w &&& 255 = opField w := toNat_and_255 _
@[simp] theorem hField_and_255 (w : CommandWord) : hField w &&& 255 = hField w := toNat_and_255 _
@[simp] theorem cField_and_255 (w : CommandWord) : cField w &&& 255 = cField w := toNat_and_255 _
@[simp] theorem gField_and_255 (w : CommandWord) : gField w &&& 255 = gField w := toNat_and_255 _
@[simp] theorem aField_and_ones (w : CommandWord) : aField w &&& 4294967295 = aField w :=
  toNat_and_4294967295 _
@[simp] theorem bField_and_ones (w : CommandWord) : bField w &&& 4294967295 = bField w :=
  toNat_and_4294967295 _

/-- The word of a command selects the command's row, and no other (R81). -/
theorem selects_encode (i : Instr) :
    ∀ r ∈ opcodeRows, r.selects (encode i) = true ↔ i.mnemonic = r.mnemonic := by
  rw [opcodeRows_eq_packFields]
  cases i with
  | create format gpio n hz =>
    cases format <;> simp [OpcodeRow.selects_iff, Instr.mnemonic, encode, ChannelFormat.code]
  | setPixel | clear | refresh | refreshWait | enable | disable | destroy =>
    simp [OpcodeRow.selects_iff, Instr.mnemonic, encode]

/-- A word that selects a row is legal (R81, R84). -/
theorem decodeWord_of_selects {w : CommandWord} :
    ∀ r ∈ opcodeRows, r.selects w = true → ∃ i, decodeWord w = .ok i := by
  rw [opcodeRows_eq_packFields]
  simp only [List.forall_mem_cons, OpcodeRow.selects_iff]
  simp +contextual [decodeWord, unlessReserved, cField_and_254]

/-- Settles O8: a word that selects a row is legal, so it is the word of its command, which selects that command's row
alone. -/
theorem decoderAgreesWithOpcodeTable : Obligations.DecoderAgreesWithOpcodeTable := by
  refine fun w r hr => ⟨fun hw => ?_, fun ⟨i, hd, hm⟩ => ?_⟩
  · obtain ⟨i, hd⟩ := decodeWord_of_selects r hr hw
    have hi := (legalWordIsEncodedCommand w i hd).2
    exact ⟨i, hd, (selects_encode i r hr).mp (hi ▸ hw)⟩
  · have hi := (legalWordIsEncodedCommand w i hd).2
    exact hi ▸ (selects_encode i r hr).mpr hm

/-! ### Illegal words -/

/-- The decoder refuses exactly the words R84 calls illegal. -/
theorem decodeWord_error_iff (w : CommandWord) : (∃ e, decodeWord w = .error e) ↔ illegalWord w = true := by
  unfold decodeWord
  split
  case h_9 =>
    have hop : ¬ (1 ≤ opField w ∧ opField w ≤ 8) := by simp only [imp_false] at *; omega
    simp [illegalWord, hop]
  all_goals
    next hop =>
    rw [unlessReserved_eq_error]
    simp only [illegalWord, reservedFieldSet, hop, Bool.or_eq_true, Bool.and_eq_false_iff, Bool.not_eq_true',
      decide_eq_false_iff_not, decide_eq_true_eq, beq_eq_false_iff_ne, bne_iff_ne, ne_eq]
    omega

end Sys2Proof

namespace Sys2Proof.Machine

/-- The issue of an illegal word by a task that is there and not waiting (R84). -/
theorem issueWord_illegal {s : State} {t : Nat} {w : CommandWord} {e : DecodeError} (ht : t < s.tasks.length)
    (hw : s.waitOf t = none) (hd : decodeWord w = .error e) :
    issueWord t w s = .next ({ s with issuer := t }.answer .illegalCommand) := by
  have hwait : (s.tasks[t]).wait = none := by simpa [State.waitOf, ht] using hw
  simp [issueWord, List.getElem?_eq_getElem ht, hwait, hd]

/-- The issue of a command by a task that is there and not waiting (R8, R118). -/
theorem issueWord_command {s : State} {t : Nat} {w : CommandWord} {i : Instr} (ht : t < s.tasks.length)
    (hw : s.waitOf t = none) (hd : decodeWord w = .ok i) :
    issueWord t w s = exec i { s with issuer := t } := by
  have hwait : (s.tasks[t]).wait = none := by simpa [State.waitOf, ht] using hw
  simp [issueWord, List.getElem?_eq_getElem ht, hwait, hd]

/-- Settles O9: an illegal word is one the decoder refuses, and is only answered. -/
theorem illegalWordIsAnsweredOnly : Obligations.IllegalWordIsAnsweredOnly := by
  refine fun w => ⟨decodeWord_error_iff w, fun hi s t ht hw => ?_⟩
  obtain ⟨e, hd⟩ := (decodeWord_error_iff w).mpr hi
  exact ⟨_, issueWord_illegal ht hw hd, rfl, answers_respond ht rfl⟩

/-- Settles O5: each word decodes by evaluation. -/
theorem specWordsDecode : Obligations.SpecWordsDecode :=
  ⟨rfl, rfl, rfl, rfl, rfl, rfl, rfl, rfl, rfl⟩

/-- The handle of a response word is its second byte, the bits above are zero (R86). -/
theorem responseWord_handle (code : ResultCode) (handle : Nat) :
    (responseWord code handle).extractLsb' 8 8 = BitVec.ofNat 8 handle ∧
      (responseWord code handle).extractLsb' 16 16 = 0 := by
  simp (disch := decide) only [responseWord, BitVec.extractLsb'_append_eq_of_add_le,
    BitVec.extractLsb'_append_eq_of_le]
  exact ⟨BitVec.extractLsb'_eq_self, rfl⟩

theorem ResultCode.number_lt (code : ResultCode) : code.number < 256 := by cases code <;> decide

theorem ResultCode.number_injective {c d : ResultCode} (h : c.number = d.number) : c = d := by
  revert h
  cases c <;> cases d <;> decide

/-- Settles O10: the three fields of the word, and the numbers of the codes. -/
theorem responseWordHoldsCodeAndHandle : Obligations.ResponseWordHoldsCodeAndHandle := by
  refine ⟨fun code handle hh => ⟨?_, ?_, (responseWord_handle code handle).2⟩,
    fun c d => ResultCode.number_injective, rfl, rfl, rfl, rfl, rfl, rfl, rfl, rfl⟩
  · rw [responseWord_code, BitVec.toNat_ofNat, Nat.mod_eq_of_lt code.number_lt]
  · rw [(responseWord_handle code handle).1, BitVec.toNat_ofNat, Nat.mod_eq_of_lt hh]

/-! ### Steps that run a word -/

/-- Settles O3: the next listed input is a word the issuing task may issue, so the step is the issue of it. -/
theorem stepRunsTheDecodedCommand : Obligations.StepRunsTheDecodedCommand := by
  refine ⟨fun s t w rest i hsched ht hw hd => ⟨decodeWord_wellFormed hd, ?_⟩, fun s => rfl⟩
  have hstep : step s = issueWord t w { s with schedule := rest } := by
    simp only [step, State.nextMove, State.takeMove, hsched]; rfl
  rw [hstep]
  exact issueWord_command (s := { s with schedule := rest }) ht hw hd

theorem readyFirstTask_head (tasks : List Task) :
    ∃ task, (readyFirstTask tasks)[0]? = some task ∧ task.wait = none := by
  cases tasks with
  | nil => exact ⟨_, rfl, rfl⟩
  | cons task rest => exact ⟨_, rfl, rfl⟩

/-- Settles O4: the word handed over stands first in the inputs, and task 0 may issue it. -/
theorem fetchWordIsTheNextCommand : Obligations.FetchWordIsTheNextCommand := by
  intro s nbits w i hd
  obtain ⟨task, htask, hwait⟩ := readyFirstTask_head s.tasks
  have hd' : decodeWord (BitVec.ofNat 96 (w % 2 ^ nbits)) = .ok i := by
    cases hk : decodeWord (BitVec.ofNat 96 (w % 2 ^ nbits)) with
    | error e => rw [decodeTableWord, hk] at hd; cases hd
    | ok j => rw [decodeTableWord, hk] at hd; rw [Option.some.inj hd]
  let u : State := { s with tasks := readyFirstTask s.tasks }
  have ht : 0 < u.tasks.length := (List.getElem?_eq_some_iff.mp htask).1
  have hw : u.waitOf 0 = none := by rw [State.waitOf, htask]; exact hwait
  exact ⟨_, issueWord_command ht hw hd', rfl, rfl, rfl, rfl, rfl, rfl, rfl, rfl⟩

end Sys2Proof.Machine

/-! PROOFS. Power-on reset and the invariant over every step (10_state.md section 9, 70_reset_and_hazards.md). -/

namespace Sys2Proof.Machine

/-! ### Power-on reset -/

section PowerOn

variable (c : Config) (hc : c.Bounds)

@[simp] theorem State.powerOn_stripAt (h : Nat) : (State.powerOn c hc).stripAt h = none := by
  simp only [State.stripAt, State.powerOn, List.getElem?_replicate]
  split <;> rfl

@[simp] theorem State.powerOn_waitOf (t : Nat) : (State.powerOn c hc).waitOf t = none := by
  simp only [State.waitOf, State.powerOn, List.getElem?_replicate]
  split <;> rfl

@[simp] theorem State.powerOn_liveStrips : (State.powerOn c hc).liveStrips = [] := by
  refine List.eq_nil_iff_forall_not_mem.mpr fun st hst => ?_
  obtain ⟨h, hs⟩ := State.mem_liveStrips.mp hst
  rw [State.powerOn_stripAt] at hs
  cases hs

end PowerOn

/-- Settles O1: each field is the one `State.powerOn` gives it. -/
theorem powerOnResetState : Obligations.PowerOnResetState :=
  fun c hc => ⟨rfl, List.length_replicate, State.powerOn_stripAt c hc, fun _ => ⟨rfl, rfl⟩, rfl,
    List.length_replicate, State.powerOn_waitOf c hc, by decide, rfl⟩

/-- Settles O2: with no Live strip, no wire written and no task waiting, only the pool and the bounds are left. -/
theorem powerOnResetSatisfiesInvariant : Obligations.PowerOnResetSatisfiesInvariant := fun c hc =>
  { bounds := hc
    slots_length := List.length_replicate
    tasks_length := List.length_replicate
    strips_ok := by simp
    pool := by rw [State.powerOn_liveStrips]; rfl
    pins_distinct := by simp
    wires_wf := ⟨List.Pairwise.nil, nofun⟩
    wires_ok := nofun
    waits_live := fun task ht w hw => by
      obtain ⟨-, rfl⟩ := List.mem_replicate.mp ht
      cases hw }

/-! ### Every step keeps the invariant -/

/-- A well-formed command that answers a next state keeps the invariant. -/
theorem State.Inv.exec {s t : State} {i : Instr} (h : s.Inv) (hi : i.WellFormed)
    (e : Sys2Proof.Machine.exec i s = .next t) : t.Inv := by
  cases exec_cases e with
  | failed => exact h.respond _ _
  | created format gpio n hz k p hn hneed hch hpin =>
    obtain ⟨hfree, hp, hr⟩ := State.acquireChannel_eq_some.mp hch
    obtain ⟨hk, hs, -⟩ := State.freeSlot_eq_some.mp hfree
    exact h.install hk hs (.created hn hi hp hr) hneed hpin
  | strip _ k st st' _ hs hc =>
    obtain ⟨hok, hg, hl⟩ := (h.live hs).command hc
    exact (h.setStrip hs hok hg hl).respond _ _
  | waits k timeoutMs st st' hs ht =>
    obtain ⟨hok, hg, hl⟩ := (h.live hs).transmit ht
    refine (h.setStrip hs hok hg hl).setWait _ _ fun w hw => ?_
    rw [← Option.mem_some.mp hw, setStrip_at hs rfl]
    rfl
  | destroyed k st hs _ hw => exact (h.releaseStrip hs hw).respond _ _

/-- A wait that ends keeps the invariant. -/
theorem State.Inv.endWait {s : State} (h : s.Inv) (t : Nat) (code : ResultCode) : (s.endWait t code).Inv :=
  (h.setWait t none nofun).respond _ _

/-- Every move that answers a next state keeps the invariant. -/
theorem State.Inv.runMove {s t : State} {m : Move} (h : s.Inv) (e : runMove m s = .next t) : t.Inv := by
  cases runMove_cases e with
  | idle => exact h
  | illegal k => exact (h.issuer k).respond _ _
  | command k w _ _ i hd _ hx => exact (h.issuer k).exec (decodeWord_wellFormed hd) hx
  | waitComplete k => exact h.endWait k _
  | waitTimeout k => exact h.endWait k _
  | txStart k st hs he => exact h.setStrip hs ((h.live hs).txStart he).1 rfl rfl
  | enc k st hs he => exact h.setStrip hs ((h.live hs).encNext he) (by simp) (by simp)
  | seq k st d rest hs ha hq =>
    obtain ⟨hlow, hda, hdb⟩ := (h.live hs).head hq
    exact (h.setStrip hs ((h.live hs).seqStep ha hq) rfl rfl).wireEmitAll (h.live hs).gpio_fits hlow hda hdb
  | txDone k st hs he => exact h.setStrip hs ((h.live hs).txDone he) rfl rfl

/-- Settles O52: a step is its move, and inputs are no part of the invariant. -/
theorem stepKeepsInvariant : Obligations.StepKeepsInvariant :=
  fun _ _ h e => h.takeMove.runMove e

end Sys2Proof.Machine

/-! PROOFS. CREATE (41_strip_ops.md section 1). -/

namespace Sys2Proof.Machine

/-! ### CREATE, case by case in the order of R110 -/

section Create

variable {s : State} {format : ChannelFormat} {gpio n hz h : Nat}

theorem exec_create_zero : exec (.create format gpio 0 hz) s = .next (s.answer .validationError) := by
  rw [exec, execCreate, if_pos rfl]

theorem exec_create_noPool (hn : 1 ≤ n) (hp : s.poolFree < n * channelsOf format) :
    exec (.create format gpio n hz) s = .next (s.answer .allocationError) := by
  rw [exec, execCreate, if_neg (Nat.ne_of_gt hn), frameBytes, if_pos hp]

theorem exec_create_noChannel (hn : 1 ≤ n) (hp : n * channelsOf format ≤ s.poolFree)
    (hch : s.acquireChannel hz = none) :
    exec (.create format gpio n hz) s = .next (s.answer .peripheralError) := by
  simp only [exec, execCreate, Nat.ne_of_gt hn, frameBytes, Nat.not_lt.mpr hp, if_false, hch]

theorem exec_create_pinInUse {p : Profile} (hn : 1 ≤ n) (hp : n * channelsOf format ≤ s.poolFree)
    (hch : s.acquireChannel hz = some (h, p)) (hpin : s.pinInUse gpio = true) :
    exec (.create format gpio n hz) s = .refused (.pinInUse gpio) := by
  simp only [exec, execCreate, Nat.ne_of_gt hn, frameBytes, Nat.not_lt.mpr hp, if_false, hch, hpin, if_true]

/-- CREATE with every check passing and the pin free (R110 step 4). -/
theorem exec_create_installs (hn : 1 ≤ n) (hp : n * channelsOf format ≤ s.poolFree) (hf : s.freeSlot = some h)
    (hr : (Profile.ofResolution s.config hz).Realisable s.config.durMax)
    (hpin : ∀ st ∈ s.liveStrips, st.gpio ≠ gpio) :
    exec (.create format gpio n hz) s =
      .next (s.install h (Strip.created format gpio n hz (Profile.ofResolution s.config hz))) := by
  have hch := State.acquireChannel_eq_some.mpr ⟨hf, rfl, hr⟩
  simp only [exec, execCreate, Nat.ne_of_gt hn, frameBytes, Nat.not_lt.mpr hp, if_false, hch,
    State.pinInUse_eq_false.mpr hpin, Bool.false_eq_true]



end Create



/-- Settles O12: each check that fails is the first one that does. -/
theorem createReportsFirstFailure : Obligations.CreateReportsFirstFailure := by
  refine fun s format gpio n hz ht => ⟨fun hn => ?_, fun hn hp => ?_, fun hn hp hch => ?_⟩
  · subst hn
    exact fails_answer ht exec_create_zero
  · exact fails_answer ht (exec_create_noPool hn hp)
  · have hnone : s.acquireChannel hz = none :=
      State.acquireChannel_eq_none.mpr (hch.imp_left State.freeSlot_eq_none.mpr)
    exact fails_answer ht (exec_create_noChannel hn hp hnone)

/-- A buffer with nothing listed is zero throughout (R26, R39). -/
theorem fbBytes_of_nil {st : Strip} (hfb : st.fb = []) : st.fbBytes = List.replicate st.fbLen 0x00 := by
  simp [List.eq_replicate_iff, Strip.fbBytes, hfb]

/-- A new strip in an Absent slot leaves the other slots. -/
theorem otherSlots_install {s : State} {h : Nat} (hl : h < s.slots.length) (st : Strip) :
    OtherSlotsSame h s (s.install h st) where
  length := by simp
  same k hk := by rw [State.install_stripAt hl, if_neg hk]

/-- Settles O11: the strip installed is the one CREATE makes, whose fields are the operands. -/
theorem createInstallsStrip : Obligations.CreateInstallsStrip := by
  intro s format gpio n hz h ht hn hp hl habs hleast hr hpin
  have hfree := State.freeSlot_eq_some.mpr ⟨hl, habs, hleast⟩
  refine ⟨_, _, exec_create_installs hn hp hfree hr hpin, (State.install_stripAt hl _ h).trans (if_pos rfl), rfl, rfl,
    rfl, rfl, rfl, fbBytes_of_nil rfl, Memory.wf_nil, rfl, rfl, rfl, rfl, rfl, rfl, otherSlots_install hl _, rfl,
    answers_respond ht rfl⟩

/-- Settles O14: the channel is acquired, so the pin decides. -/
theorem createOnPinInUseIsRefused : Obligations.CreateOnPinInUseIsRefused := by
  intro s format gpio n hz h hn hp hl habs hr hpin
  have hfree : s.freeSlot ≠ none := fun hnone => by
    have := State.freeSlot_eq_none.mp hnone h hl
    rw [habs] at this
    cases this
  obtain ⟨k, hk⟩ := Option.ne_none_iff_exists'.mp hfree
  have hch := State.acquireChannel_eq_some.mpr ⟨hk, rfl, hr⟩
  exact exec_create_pinInUse hn hp hch (State.pinInUse_eq_true.mpr hpin)

/-- At the document's durations the profiles in range are those of 3 333 334 to 819 187 499 Hz: below, `t0h` is 0;
above, the second half of RESET exceeds `DUR_MAX` (R110, D8). -/
theorem realisable_iff_of_nominal {c : Config} (hc : c.Nominal) (hz : Nat) :
    (Profile.ofResolution c hz).Realisable c.durMax ↔ 3333334 ≤ hz ∧ hz ≤ 819187499 := by
  obtain ⟨hzeroH, hzeroL, honeH, honeL, hreset, -, hdur⟩ := hc
  simp only [Profile.Realisable, TickFits, Profile.ofResolution, Profile.resetHalfA, Profile.resetHalfB, ticks, hzeroH,
    hzeroL, honeH, honeL, hreset, hdur]
  omega

/-- Settles O13: with all else well the profile decides, and its range is that of the resolutions. -/
theorem createAcceptsResolutionsInRange : Obligations.CreateAcceptsResolutionsInRange := by
  intro s format gpio n hz h ht hc hn hp hl habs hleast hpin
  have hrange := realisable_iff_of_nominal hc hz
  refine ⟨fun hin => ?_, fun hout => ?_⟩
  · have hfree := State.freeSlot_eq_some.mpr ⟨hl, habs, hleast⟩
    exact ⟨_, exec_create_installs hn hp hfree (hrange.mpr hin) hpin, answers_respond ht rfl⟩
  · obtain ⟨-, -, hchannel⟩ := createReportsFirstFailure s format gpio n hz ht
    exact hchannel hn hp (.inr fun hr => by have := hrange.mp hr; omega)

end Sys2Proof.Machine

/-! PROOFS. SET_PIXEL and CLEAR (41_strip_ops.md section 2). -/

namespace Sys2Proof.Machine

section Strips

variable {s : State} {h : Nat} {st : Strip}

/-! ### SET_PIXEL -/

theorem exec_setPixel_out {index : Nat} {sample : Sample} (hs : s.stripAt h = some st) (hi : st.ledCount ≤ index) :
    exec (.setPixel h index sample) s = .next (s.answer .indexOutOfRange) := by
  simp only [exec, execSetPixel, onStrip_live hs, hi, if_true]

/-- A SET_PIXEL in range stores its bytes inside the buffer and answers Ok (R52, R112). -/
theorem exec_setPixel_in {index : Nat} (sample : Sample) (hs : s.stripAt h = some st) (hi : index < st.ledCount) :
    ∃ m : Memory, st.fbStore (offset index st.channels) (sampleBytes st.format sample) = .ok { st with fb := m } ∧
      exec (.setPixel h index sample) s = .next ((s.setStrip h { st with fb := m }).answer .ok) := by
  have hinside : offset index st.channels + (sampleBytes st.format sample).length ≤ st.fbLen := by
    rw [sampleBytes_length]
    exact pixel_inside hi
  obtain ⟨m, hm⟩ := Strip.fbStore_inside _ st _ hinside
  exact ⟨m, hm, by simp only [exec, execSetPixel, onStrip_live hs, Nat.not_le.mpr hi, if_false, hm]⟩

/-- The bytes of a sample by position; the fourth is stored with 4 channels only (R83). -/
theorem sampleBytes_getElem (format : ChannelFormat) (v : Sample) :
    (sampleBytes format v)[0]? = some v.s0 ∧ (sampleBytes format v)[1]? = some v.s1 ∧
      (sampleBytes format v)[2]? = some v.s2 ∧
      (channelsOf format = 4 → (sampleBytes format v)[3]? = some v.s3) := by
  cases format with
  | rgb => exact ⟨rfl, rfl, rfl, fun h => absurd h (by decide)⟩
  | grbw => exact ⟨rfl, rfl, rfl, fun _ => rfl⟩

/-! ### CLEAR -/

theorem exec_clear (hs : s.stripAt h = some st) :
    exec (.clear h) s = .next ((s.setStrip h { st with fb := [] }).answer .ok) := by
  rw [exec, execClear, onStrip_live hs]

/-! ### CLEAR as SET_PIXELs of the zero sample -/

/-- SET_PIXEL of the zero sample (R115). -/
abbrev zeroPixel (h index : Nat) : Instr := .setPixel h index ⟨0, 0, 0, 0⟩

theorem sampleBytes_zero (format : ChannelFormat) :
    sampleBytes format ⟨0, 0, 0, 0⟩ = List.replicate (channelsOf format) 0 := by
  cases format <;> rfl

/-- A SET_PIXEL of the zero sample zeroes the bytes of its pixel, which are those at `a` with `a / channels` its
index. -/
theorem exec_zeroPixel {index : Nat} (hs : s.stripAt h = some st) (hwf : Memory.wf st.fb) (hi : index < st.ledCount) :
    ∃ m, exec (zeroPixel h index) s = .next ((s.setStrip h { st with fb := m }).answer .ok) ∧ Memory.wf m ∧
      ∀ a, Memory.read m a = if a / st.channels = index then 0 else Memory.read st.fb a := by
  obtain ⟨m, hm, e⟩ := exec_setPixel_in ⟨0, 0, 0, 0⟩ hs hi
  obtain ⟨-, hwf', -⟩ := Strip.fbStore_keeps hm
  obtain ⟨hin, hout⟩ := Strip.fbStore_read hm hwf
  have hpos : 0 < st.channels := by have := sampleLength_le st; omega
  rw [sampleBytes_zero] at hin hout
  refine ⟨m, e, hwf' hwf, fun a => ?_⟩
  split
  · next ha =>
    have hsplit : offset index st.channels + a % st.channels = a := by
      rw [offset, ← ha, Nat.mul_comm]
      exact Nat.div_add_mod a st.channels
    have hzero : (List.replicate (channelsOf st.format) (0 : Byte))[a % st.channels]? = some 0 := by
      rw [List.getElem?_replicate, if_pos (show a % st.channels < channelsOf st.format from Nat.mod_lt a hpos)]
    rw [← hin _ _ hzero, hsplit]
  · next ha =>
    refine hout a ?_
    rw [List.length_replicate]
    by_contra hcon
    obtain ⟨h1, h2⟩ := not_or.mp hcon
    refine ha (Nat.div_eq_of_lt_le (Nat.not_lt.mp h1) ?_)
    rw [Nat.succ_mul]
    exact Nat.not_le.mp h2

/-- A strip put where it is changes nothing. -/
theorem State.setStrip_self (hs : s.stripAt h = some st) : s.setStrip h st = s := by
  obtain ⟨hl, hget⟩ := List.getElem?_eq_some_iff.mp (State.stripAt_eq_some.mp hs)
  rw [State.setStrip, ← hget, List.set_getElem_self]

theorem execAll_cons {i : Instr} {rest : List Instr} {t : State} (e : exec i s = .next t) :
    execAll (i :: rest) s = execAll rest t := by
  simp only [execAll, e]

/-- SET_PIXELs of the zero sample, one after the other, zero the bytes of their pixels. -/
theorem execAll_zeroPixels {order : List Nat} (hs : s.stripAt h = some st) (hwf : Memory.wf st.fb)
    (hi : ∀ index ∈ order, index < st.ledCount) :
    ∃ v m, execAll (order.map (zeroPixel h)) s = .next v ∧
      v = { s.setStrip h { st with fb := m } with tasks := v.tasks } ∧ Memory.wf m ∧
      ∀ a, Memory.read m a = if a / st.channels ∈ order then 0 else Memory.read st.fb a := by
  induction order generalizing s st with
  | nil =>
    refine ⟨s, st.fb, rfl, ?_, hwf, fun a => by simp⟩
    rw [State.setStrip_self hs]
  | cons index order ih =>
    obtain ⟨m, e, hwf', hread⟩ := exec_zeroPixel hs hwf (hi index List.mem_cons_self)
    have hs' := setStrip_at (u := (s.setStrip h { st with fb := m }).answer .ok) hs rfl
    obtain ⟨v, m', ev, hv, hwf'', hread'⟩ := ih hs' hwf' fun k hk => hi k (List.mem_cons_of_mem _ hk)
    refine ⟨v, m', (execAll_cons e).trans ev, ?_, hwf'', fun a => ?_⟩
    · rw [hv]
      simp [State.setStrip, State.answer, State.respond]
    · rw [hread', hread]
      by_cases hhead : a / st.channels = index
      · simp [hhead]
      · simp only [List.mem_cons, hhead, false_or, if_false]
        rfl

/-- A byte outside the buffer reads zero in a good strip (R35 (i)). -/
theorem Strip.Ok.read_outside {c : Config} (hok : st.Ok c) {a : Nat} (ha : st.fbLen ≤ a) :
    Memory.read st.fb a = 0 := by
  by_contra hne
  have := hok.fb_inside _ (mem_of_cellRead_ne hne)
  exact absurd this (Nat.not_lt.mpr ha)



end Strips

/-- Settles O16: the test of the index comes first; the last index passes it. -/
theorem setPixelOutOfRangeWritesNothing : Obligations.SetPixelOutOfRangeWritesNothing := by
  refine fun s h sample st ht hs => ⟨fun index hi => fails_answer ht (exec_setPixel_out hs hi), fun hn => ?_⟩
  obtain ⟨m, -, e⟩ := exec_setPixel_in sample hs (show st.ledCount - 1 < st.ledCount by omega)
  exact ⟨_, e, answers_respond ht rfl⟩

/-- Settles O15: FbStore puts the bytes where they belong and keeps the others. -/
theorem setPixelStoresTheSample : Obligations.SetPixelStoresTheSample := by
  intro s h index sample st ht hs hwf hi
  obtain ⟨m, hm, e⟩ := exec_setPixel_in sample hs hi
  obtain ⟨-, hwf', -⟩ := Strip.fbStore_keeps hm
  obtain ⟨hin, hout⟩ := Strip.fbStore_read hm hwf
  obtain ⟨h0, h1, h2, h3⟩ := sampleBytes_getElem st.format sample
  rw [sampleBytes_length] at hout
  obtain ⟨t, he, hat, hother, hframe, hans⟩ := strip_command ht hs e
  exact ⟨t, m, he, hat, hwf' hwf, hin 0 _ h0, hin 1 _ h1, hin 2 _ h2, fun hc => hin 3 _ (h3 hc), hout, hother, hframe,
    hans⟩

/-- Settles O17: the buffer with nothing listed reads zero everywhere. -/
theorem clearZeroesTheBuffer : Obligations.ClearZeroesTheBuffer := by
  intro s h st ht hs
  obtain ⟨t, he, hat, hother, hframe, hans⟩ := strip_command ht hs (exec_clear hs)
  exact ⟨t, [], he, hat, Memory.read_nil, Memory.wf_nil, hother, hframe, hans⟩

/-- Settles O18: all of them are the buffer that reads zero everywhere, which in canonical form is one. -/
theorem clearIsEveryPixelZeroed : Obligations.ClearIsEveryPixelZeroed := by
  intro s h st order hinv hs horder
  have hok := hinv.live hs
  have hs' := setStrip_at (u := (s.setStrip h { st with fb := [] }).answer .ok) hs rfl
  obtain ⟨v, m, ev, hv, hwf, hread⟩ := execAll_zeroPixels hs hok.fb_wf
    fun index hi => List.mem_range.mp (horder.mem_iff.mp hi)
  have hm : m = [] := by
    refine Memory.ext_read hwf Memory.wf_nil fun a => ?_
    rw [hread, Memory.read_nil]
    split
    · rfl
    · next ha =>
      rw [horder.mem_iff, List.mem_range, Nat.div_lt_iff_lt_mul (by have := sampleLength_le st; omega)] at ha
      exact hok.read_outside (Nat.not_lt.mp ha)
  refine ⟨_, _, v, exec_clear hs, exec_clear hs', ?_, ev, ?_⟩
  · simp [State.setStrip, State.answer, State.respond]
  · rw [hv, hm]
    rfl

end Sys2Proof.Machine

/-! PROOFS. REFRESH, REFRESH_WAIT, ENABLE, DISABLE and DESTROY (41_strip_ops.md sections 3 to 5). -/

namespace Sys2Proof.Machine

section Commands

variable {s : State} {h : Nat} {st : Strip}

/-- REFRESH accepted (R116). -/
theorem exec_refresh_accepted (hs : s.stripAt h = some st) (he : st.enabled = true)
    (ho : st.occupancy ≠ s.config.queueDepth) :
    exec (.refresh h) s = .next ((s.setStrip h { st with pending := st.pending + 1 }).answer .ok) := by
  simp only [exec, execRefresh, onStrip_live hs, Strip.transmit_eq_some.mpr ⟨he, ho, rfl⟩]

/-- REFRESH rejected (R116, D14). -/
theorem exec_refresh_rejected (hs : s.stripAt h = some st)
    (hr : st.enabled = false ∨ st.occupancy = s.config.queueDepth) :
    exec (.refresh h) s = .next (s.answer .transmitError) := by
  simp only [exec, execRefresh, onStrip_live hs, Strip.transmit_eq_none.mpr hr]

/-- REFRESH_WAIT accepted (R118 phase 1). -/
theorem exec_refreshWait_accepted {timeoutMs : Nat} (hs : s.stripAt h = some st) (he : st.enabled = true)
    (ho : st.occupancy ≠ s.config.queueDepth) :
    exec (.refreshWait h timeoutMs) s =
      .next ((s.setStrip h { st with pending := st.pending + 1 }).setWait s.issuer (some ⟨h, timeoutMs⟩)) := by
  simp only [exec, execRefreshWait, onStrip_live hs, Strip.transmit_eq_some.mpr ⟨he, ho, rfl⟩]

/-- REFRESH_WAIT rejected (R118 phase 1, D14). -/
theorem exec_refreshWait_rejected {timeoutMs : Nat} (hs : s.stripAt h = some st)
    (hr : st.enabled = false ∨ st.occupancy = s.config.queueDepth) :
    exec (.refreshWait h timeoutMs) s = .next (s.answer .transmitError) := by
  simp only [exec, execRefreshWait, onStrip_live hs, Strip.transmit_eq_none.mpr hr]

/-- DISABLE is rejected on a stopped or a busy stage (R124, D15, D16). -/
theorem Strip.disableStage_eq_none : st.disableStage = none ↔ st.enabled = false ∨ 0 < st.occupancy := by
  unfold Strip.disableStage
  split
  · simp_all
  · split <;> simp_all

/-- An Absent slot leaves the other slots. -/
theorem otherSlots_releaseStrip (s : State) (h : Nat) (st : Strip) : OtherSlotsSame h s (s.releaseStrip h st) where
  length := by simp
  same k hk := by rw [State.releaseStrip_stripAt, if_neg hk]

theorem exec_destroy_unwaited (hs : s.stripAt h = some st) (hw : s.waitedOn h = false) :
    exec (.destroy h) s =
      .next (if 0 < st.occupancy then s.answer .peripheralError else (s.releaseStrip h st).answer .ok) := by
  simp only [exec, execDestroy, onStrip_live hs, hw, Bool.false_eq_true, if_false]
  split <;> rfl



end Commands

/-- Settles O19: `transmit` accepts one more, or rejects. -/
theorem refreshQueuesOneTransmission : Obligations.RefreshQueuesOneTransmission :=
  fun _ _ _ ht hs => ⟨fun he ho => strip_command ht hs (exec_refresh_accepted hs he ho),
    fun hr => fails_answer ht (exec_refresh_rejected hs hr)⟩

/-- Settles O21: accepted, the strip changes as by REFRESH and the wait begins in place of an answer. -/
theorem refreshWaitQueuesAndWaits : Obligations.RefreshWaitQueuesAndWaits := by
  refine fun s h timeoutMs st ht hs => ⟨fun he ho => ?_, fun hr => fails_answer ht (exec_refreshWait_rejected hs hr)⟩
  exact ⟨_, exec_refreshWait_accepted hs he ho, setStrip_at hs rfl, otherSlots_setStrip hs rfl, rfl,
    (State.setWait_waitOf (s := s.setStrip h _) ht _ _).trans (if_pos rfl), State.setWait_responsesOf _ _ _,
    fun _ hk => State.setWait_getElem_ne hk _⟩

/-- Settles O23: a stopped stage starts, a started one rejects. -/
theorem enableStartsTheOutputStage : Obligations.EnableStartsTheOutputStage := by
  refine fun s h st ht hs => ⟨fun he => strip_command ht hs ?_, fun he => fails_answer ht ?_⟩
  · simp only [exec, execEnable, onStrip_live hs, Strip.enableStage_eq_some.mpr ⟨he, rfl⟩]
  · simp only [exec, execEnable, onStrip_live hs, Strip.enableStage, he, if_true]

/-- Settles O24: an idle started stage stops, any other rejects. -/
theorem disableStopsAnIdleOutputStage : Obligations.DisableStopsAnIdleOutputStage := by
  refine fun s h st ht hs => ⟨fun he ho => strip_command ht hs ?_, fun hr => fails_answer ht ?_⟩
  · simp only [exec, execDisable, onStrip_live hs, Strip.disableStage_eq_some.mpr ⟨he, ho, rfl⟩]
  · simp only [exec, execDisable, onStrip_live hs, Strip.disableStage_eq_none.mpr hr]

/-- Settles O25: no task waits on the strip, so its occupancy decides. -/
theorem destroyReleasesAnIdleStrip : Obligations.DestroyReleasesAnIdleStrip := by
  intro s h st ht hs hw
  have e := exec_destroy_unwaited hs (State.waitedOn_eq_false.mpr hw)
  refine ⟨fun ho => ?_, fun ho => fails_answer ht (by rw [e, if_pos ho])⟩
  rw [if_neg (by omega)] at e
  obtain ⟨hlen, hsame⟩ := otherSlots_releaseStrip s h st
  exact ⟨_, e, (s.releaseStrip_stripAt h st h).trans (if_pos rfl), rfl, ⟨hlen, hsame⟩, rfl, answers_respond ht rfl⟩

/-- Settles O27: the wait is looked for before the occupancy. -/
theorem destroyUnderAWaitIsRefused : Obligations.DestroyUnderAWaitIsRefused := by
  intro s h st hs hw
  simp only [exec, execDestroy, onStrip_live hs, State.waitedOn_eq_true.mpr hw, if_true]

/-! ### The end of a wait (R118 phase 2) -/

section Waits

variable {s : State} {task : Nat} {w : Waiting}

/-- What the end of a wait does to its task, and that it does nothing to another. -/
theorem endWait_claims (hw : s.waitOf task = some w) (code : ResultCode) :
    (s.endWait task code).waitOf task = none ∧
      (s.endWait task code).responsesOf task = s.responsesOf task ++ [responseWord code 0] ∧
      ∀ k, k ≠ task → (s.endWait task code).tasks[k]? = s.tasks[k]? := by
  have ht := State.waitOf_lt hw
  refine ⟨?_, ?_, fun k hk => ?_⟩
  · rw [State.endWait, State.respond_waitOf, State.setWait_waitOf ht, if_pos rfl]
  · rw [State.endWait, State.respond_responsesOf (by simpa using ht), if_pos rfl, State.setWait_responsesOf]
  · rw [State.endWait, State.respond_getElem_ne hk, State.setWait_getElem_ne hk]

/-- Nothing in flight, no step of the encoder (D29). -/
theorem Strip.encEnabled_of_inactive {mem : Nat} {st : Strip} (ha : st.active = false) : st.encEnabled mem = false := by
  rw [Strip.encEnabled, ha, Bool.false_and]



end Waits

/-- Settles O22: the occupancy tells the two alternatives apart. -/
theorem waitEndsByCompletionOrTimeout : Obligations.WaitEndsByCompletionOrTimeout := by
  refine fun s task w st hw hs => ⟨fun ho => ⟨⟨_, ?_, rfl, endWait_claims hw .ok⟩, ?_, ?_⟩,
    fun ho => ⟨⟨_, ?_, rfl, endWait_claims hw .timeoutError⟩, ?_⟩⟩
  · simp only [runMove, stepWaitComplete, hw, hs, ho, if_true]
  · simp only [runMove, stepWaitTimeout, hw, hs, ho, Nat.lt_irrefl, if_false]
  · obtain ⟨-, ha⟩ := Strip.occupancy_eq_zero.mp ho
    refine runMove_of_not_enabled (.inr (.inl rfl)) ?_
    simp only [State.enabled, hs, Option.any_some, Strip.encEnabled_of_inactive ha]
  · simp only [runMove, stepWaitTimeout, hw, hs, ho, if_true]
  · simp only [runMove, stepWaitComplete, hw, hs, Nat.ne_of_gt ho, if_false]

end Sys2Proof.Machine

/-! PROOFS. Runs over listed inputs, and REFRESHes up to the queue depth (R117). -/

namespace Sys2Proof.Machine

/-- A command neither changes the parameters nor reads the inputs to come. -/
theorem exec_inputs {i : Instr} {s t : State} (e : exec i s = .next t) :
    t.config = s.config ∧ t.schedule = s.schedule := by
  cases exec_cases e <;> exact ⟨rfl, rfl⟩

/-- A move neither changes the parameters nor reads the inputs to come (R36). -/
theorem runMove_inputs {m : Move} {s t : State} (e : runMove m s = .next t) :
    t.config = s.config ∧ t.schedule = s.schedule := by
  cases runMove_cases e with
  | command task _ _ _ _ _ _ hx => exact exec_inputs (s := { s with issuer := task }) hx
  | idle | illegal | waitComplete | waitTimeout | txStart | enc | seq | txDone => exact ⟨rfl, rfl⟩

/-- A run over listed inputs makes the first of them and goes on with the others. -/
theorem run_cons {m : Move} {ms : List Move} {s t : State} (e : runMove m { s with schedule := ms } = .next t) :
    Host.Core.run core (m :: ms).length { s with schedule := m :: ms } =
      Host.Core.run core ms.length { t with schedule := ms } := by
  obtain ⟨-, hsched⟩ := runMove_inputs e
  have hstep : core.step { s with schedule := m :: ms } = .next t := e
  have ht : t = { t with schedule := ms } := by
    cases t
    cases hsched
    rfl
  simp only [List.length_cons, Host.Core.run, hstep]
  rw [← ht]

theorem Strip.txStartEnabled_iff {st : Strip} :
    st.txStartEnabled = true ↔ st.enabled = true ∧ st.active = false ∧ 0 < st.pending := by
  simp only [Strip.txStartEnabled, Bool.and_eq_true, Bool.not_eq_true', decide_eq_true_eq, and_assoc]

/-- TX_START moves one transmission from the queue into flight (R146). -/
theorem Strip.txStart_occupancy {st : Strip} (he : st.txStartEnabled = true) : st.txStart.occupancy = st.occupancy := by
  obtain ⟨-, ha, hp⟩ := Strip.txStartEnabled_iff.mp he
  simp only [Strip.occupancy, Strip.txStart, Strip.encReset, ha, Bool.toNat_true, Bool.toNat_false]
  omega

/-- TX_START, ENC_STEP and SEQ_STEP keep the occupancy and the output stage, and answer nothing. -/
theorem internal_keeps_occupancy {m : Move} {s : State} {h : Nat} {st : Strip}
    (hm : m = .txStart h ∨ m = .encStep h ∨ m = .seqStep h) (hs : s.stripAt h = some st) :
    ∃ t st', runMove m s = .next t ∧ t.tasks = s.tasks ∧ t.stripAt h = some st' ∧
      st'.occupancy = st.occupancy ∧ st'.enabled = st.enabled := by
  have hint : internalOf h m := by
    rcases hm with hm | hm | hm <;> simp [internalOf, hm]
  obtain ⟨t, e, htasks, -⟩ := runMove_internal hint s
  suffices ∃ st', t.stripAt h = some st' ∧ st'.occupancy = st.occupancy ∧ st'.enabled = st.enabled by
    obtain ⟨st', hst'⟩ := this
    exact ⟨t, st', e, htasks, hst'⟩
  have heff := runMove_slot e h
  rw [hs] at heff
  generalize t.stripAt h = o at heff ⊢
  cases heff with
  | same => exact ⟨st, rfl, rfl, rfl⟩
  | txStart _ he => exact ⟨_, rfl, Strip.txStart_occupancy he, rfl⟩
  | enc => exact ⟨_, rfl, by simp [Strip.occupancy], by simp⟩
  | seq => exact ⟨_, rfl, rfl, rfl⟩
  | command | waits | destroyed => simp at hm
  | txDone => simp at hm

/-- The responses to `n` REFRESHes where `room` of them are accepted. -/
def refreshAnswers (n room : Nat) : List ResponseWord :=
  List.replicate (min n room) (responseWord .ok 0) ++ List.replicate (n - room) (responseWord .transmitError 0)

theorem refreshAnswers_accepted (n room : Nat) :
    refreshAnswers (n + 1) (room + 1) = responseWord .ok 0 :: refreshAnswers n room := by
  rw [refreshAnswers, Nat.add_min_add_right, List.replicate_succ, Nat.add_sub_add_right]
  rfl

theorem refreshAnswers_rejected (n : Nat) :
    refreshAnswers (n + 1) 0 = responseWord .transmitError 0 :: refreshAnswers n 0 := by
  simp [refreshAnswers, List.replicate_succ]

/-- Task `task` may issue, and the started strip of slot `h` has room for `room` more transmissions. -/
structure Refreshing (h task room : Nat) (s : State) : Prop where
  strip : ∃ st, s.stripAt h = some st ∧ st.enabled = true ∧ st.occupancy + room = s.config.queueDepth
  there : task < s.tasks.length
  ready : s.waitOf task = none

@[simp] theorem State.respond_tasks_length (s : State) (k : Nat) (w : ResponseWord) :
    (s.respond k w).tasks.length = s.tasks.length := List.length_modify ..

section Refreshing

variable {h task room : Nat} {s : State}

/-- The issue of a REFRESH by a task that may issue is its execution. -/
theorem Refreshing.issue (hr : Refreshing h task room s) (hh : h < 256) :
    runMove (.issue task (encode (.refresh h))) s = exec (.refresh h) { s with issuer := task } :=
  issueWord_command hr.there hr.ready (decodeOfEncode _ (decide_eq_true hh))

/-- With room left the REFRESH is answered Ok and takes the room of one transmission (R116). -/
theorem Refreshing.accepted (hr : Refreshing h task (room + 1) s) (hh : h < 256) :
    ∃ t, runMove (.issue task (encode (.refresh h))) s = .next t ∧ Refreshing h task room t ∧
      t.responsesOf task = s.responsesOf task ++ [responseWord .ok 0] := by
  obtain ⟨st, hs, he, ho⟩ := hr.strip
  have e := exec_refresh_accepted (s := { s with issuer := task }) hs he (show _ ≠ s.config.queueDepth by omega)
  refine ⟨_, (hr.issue hh).trans e, ⟨⟨_, setStrip_at hs rfl, he, ?_⟩, ?_, ?_⟩, ?_⟩
  · rw [Strip.occupancy] at ho
    show st.pending + 1 + st.active.toNat + room = s.config.queueDepth
    omega
  · exact (State.respond_tasks_length ..).symm ▸ hr.there
  · exact (State.respond_waitOf ..).trans hr.ready
  · exact (State.respond_responsesOf hr.there _ _).trans (if_pos rfl)

/-- With no room left the REFRESH is answered TransmitError (R116). -/
theorem Refreshing.rejected (hr : Refreshing h task 0 s) (hh : h < 256) :
    ∃ t, runMove (.issue task (encode (.refresh h))) s = .next t ∧ Refreshing h task 0 t ∧
      t.responsesOf task = s.responsesOf task ++ [responseWord .transmitError 0] := by
  obtain ⟨st, hs, he, ho⟩ := hr.strip
  have e := exec_refresh_rejected (s := { s with issuer := task }) hs (.inr ho)
  refine ⟨_, (hr.issue hh).trans e, ⟨⟨st, hs, he, ho⟩, ?_, ?_⟩, ?_⟩
  · exact (State.respond_tasks_length ..).symm ▸ hr.there
  · exact (State.respond_waitOf ..).trans hr.ready
  · exact (State.respond_responsesOf hr.there _ _).trans (if_pos rfl)

/-- A TX_START, ENC_STEP or SEQ_STEP of the strip neither takes nor gives room. -/
theorem Refreshing.internal (hr : Refreshing h task room s) {m : Move}
    (hm : m = .txStart h ∨ m = .encStep h ∨ m = .seqStep h) :
    ∃ t, runMove m s = .next t ∧ Refreshing h task room t ∧ t.responsesOf task = s.responsesOf task := by
  obtain ⟨st, hs, he, ho⟩ := hr.strip
  obtain ⟨t, st', e, htasks, hs', ho', he'⟩ := internal_keeps_occupancy hm hs
  refine ⟨t, e, ⟨⟨st', hs', he'.trans he, ?_⟩, htasks ▸ hr.there,
    (State.waitOf_congr htasks _).trans hr.ready⟩, State.responsesOf_congr htasks _⟩
  rw [ho', ho, (runMove_inputs e).1]

/-- The run over `moves` answers a next state, and task `task` has received `answers` in it. -/
def AnsweredBy (task : Nat) (answers : List ResponseWord) (moves : List Move) (s : State) : Prop :=
  ∃ t, Host.Core.run core moves.length { s with schedule := moves } = .next t ∧
    t.responsesOf task = s.responsesOf task ++ answers

theorem answeredBy_nil (task : Nat) (s : State) : AnsweredBy task [] [] s :=
  ⟨_, rfl, (List.append_nil _).symm⟩

/-- The answers to a run are those to its first move and those to the others. -/
theorem AnsweredBy.cons {m : Move} {ms : List Move} {t : State} {now later : List ResponseWord}
    (e : runMove m { s with schedule := ms } = .next t) (hnow : t.responsesOf task = s.responsesOf task ++ now)
    (hlater : AnsweredBy task later ms t) : AnsweredBy task (now ++ later) (m :: ms) s := by
  obtain ⟨u, hu, hresp⟩ := hlater
  exact ⟨u, (run_cons e).trans hu, by rw [hresp, hnow, List.append_assoc]⟩

/-- The answers to the REFRESHes among `moves`, by how many find room. -/
theorem Refreshing.answeredBy (hh : h < 256) {moves : List Move}
    (hmoves : ∀ m ∈ moves, m = .issue task (encode (.refresh h)) ∨ m = .txStart h ∨ m = .encStep h ∨ m = .seqStep h)
    (hr : Refreshing h task room s) :
    AnsweredBy task (refreshAnswers (moves.countP moveIsIssue) room) moves s := by
  induction moves generalizing s room with
  | nil => simpa [refreshAnswers] using answeredBy_nil task s
  | cons m ms ih =>
    obtain ⟨hm, hms⟩ := List.forall_mem_cons.mp hmoves
    have hr' : Refreshing h task room { s with schedule := ms } := ⟨hr.strip, hr.there, hr.ready⟩
    rcases hm with rfl | hm
    · rw [List.countP_cons_of_pos rfl]
      cases room with
      | zero =>
        obtain ⟨t, e, ht, hnow⟩ := hr'.rejected hh
        exact refreshAnswers_rejected _ ▸ AnsweredBy.cons e hnow (ih hms ht)
      | succ room =>
        obtain ⟨t, e, ht, hnow⟩ := hr'.accepted hh
        exact refreshAnswers_accepted _ _ ▸ AnsweredBy.cons e hnow (ih hms ht)
    · obtain ⟨t, e, ht, hnow⟩ := hr'.internal hm
      have hcount : (m :: ms).countP moveIsIssue = ms.countP moveIsIssue := by
        rcases hm with rfl | rfl | rfl <;> exact List.countP_cons_of_neg Bool.false_ne_true
      rw [hcount]
      exact AnsweredBy.cons (now := []) e (hnow.trans (List.append_nil _).symm) (ih hms ht)

end Refreshing

/-- Settles O20: a strip of occupancy 0 has room for `QUEUE_DEPTH` transmissions. -/
theorem refreshesUpToTheQueueDepth : Obligations.RefreshesUpToTheQueueDepth := by
  intro s h task st moves hh hs he ho ht hw hmoves
  have hr : Refreshing h task s.config.queueDepth s := ⟨⟨st, hs, he, by rw [ho, Nat.zero_add]⟩, ht, hw⟩
  obtain ⟨t, hrun, hresp⟩ := hr.answeredBy hh hmoves
  exact ⟨t, hrun, by rw [hresp, refreshAnswers, List.append_assoc]⟩

end Sys2Proof.Machine

/-! PROOFS. Descriptors, their words, and frames (30_encoding.md section 1, 40_encoder.md section 1). -/

namespace Sys2Proof.Machine

/-! ### Descriptors -/

/-- Settles O31: the halves add up to `treset`, and the first level of a bit is high. -/
theorem resetDescriptor : Obligations.ResetDescriptor := by
  refine ⟨fun p => ⟨rfl, rfl, rfl, ?_, resetPulse_ne_encodeBit p⟩, fun c hc => ?_⟩
  · exact Nat.add_sub_cancel' (Nat.div_le_self p.treset 2)
  · have hprofile : Profile.ofResolution c 10000000 = ⟨3, 9, 6, 6, 800⟩ := ofResolution_of_nominal hc 1
    rw [hprofile]
    rfl

/-- Settles O32. -/
theorem tickCountsExactAtMultiplesOfTenMegahertz : Obligations.TickCountsExactAtMultiplesOfTenMegahertz :=
  fun _ k hc => ofResolution_of_nominal hc k

/-- The fields of a descriptor's word (R79). -/
theorem Descriptor.word_fields (d : Descriptor) :
    d.word.extractLsb' 0 15 = BitVec.ofNat 15 d.durationA ∧ d.word.extractLsb' 15 1 = d.levelA.bit ∧
      d.word.extractLsb' 16 15 = BitVec.ofNat 15 d.durationB ∧ d.word.extractLsb' 31 1 = d.levelB.bit := by
  simp (disch := decide) only [Descriptor.word, BitVec.extractLsb'_append_eq_of_add_le,
    BitVec.extractLsb'_append_eq_of_le]
  exact ⟨BitVec.extractLsb'_eq_self, BitVec.extractLsb'_eq_self, BitVec.extractLsb'_eq_self,
    BitVec.extractLsb'_eq_self⟩

theorem Level.bit_injective {l m : Level} (h : l.bit = m.bit) : l = m := by
  revert h
  cases l <;> cases m <;> decide

/-- A duration up to `DUR_MAX` fits the 15 bits of its field (R79, R110). -/
theorem toNat_duration {n : Nat} (h : n ≤ 32767) : (BitVec.ofNat 15 n).toNat = n := by
  rw [BitVec.toNat_ofNat]
  exact Nat.mod_eq_of_lt (Nat.lt_succ_of_le h)

/-- Settles O33: each field is read back from the word, so equal words have equal fields. -/
theorem descriptorWordHoldsTheQuad : Obligations.DescriptorWordHoldsTheQuad := by
  intro d e hda hdb hea heb
  obtain ⟨hA, hlA, hB, hlB⟩ := d.word_fields
  obtain ⟨hA', hlA', hB', hlB'⟩ := e.word_fields
  refine ⟨by rw [hA, toNat_duration hda], hlA, by rw [hB, toNat_duration hdb], hlB, fun heq => ?_⟩
  rw [← heq] at hA' hlA' hB' hlB'
  have hdurA : d.durationA = e.durationA := by
    rw [← toNat_duration hda, ← hA, hA', toNat_duration hea]
  have hdurB : d.durationB = e.durationB := by
    rw [← toNat_duration hdb, ← hB, hB', toNat_duration heb]
  have hlevA := Level.bit_injective (hlA.symm.trans hlA')
  have hlevB := Level.bit_injective (hlB.symm.trans hlB')
  cases d
  cases e
  exact (Descriptor.mk.injEq ..).mpr ⟨hlevA, hdurA, hlevB, hdurB⟩

/-! ### Bytes -/

/-- Where the two bits differ in their high time, `encode_bit` tells them apart. -/
theorem encodeBit_injective {p : Profile} (hp : p.t0h ≠ p.t1h) {x y : Bool} (h : encodeBit p x = encodeBit p y) :
    x = y := by
  have hdur := congrArg Descriptor.durationA h
  cases x <;> cases y
  · rfl
  · exact absurd hdur hp
  · exact absurd hdur.symm hp
  · rfl

theorem encodeByte_injective {p : Profile} (hp : p.t0h ≠ p.t1h) {v w : Byte} (h : encodeByte p v = encodeByte p w) :
    v = w := by
  refine BitVec.eq_of_getLsbD_eq fun i hi => ?_
  have hv := encodeByte_getElem p v (show 7 - i < 8 by omega)
  rw [h, encodeByte_getElem p w (by omega), Option.some.injEq, Nat.sub_sub_self (by omega)] at hv
  exact (encodeBit_injective hp hv).symm

/-- Settles O35: at the document's durations a ONE's high time is at least twice a ZERO's, and that is not 0. -/
theorem encodeByteIsInjective : Obligations.EncodeByteIsInjective := by
  intro c hz hc hr v w
  obtain ⟨⟨hpos, -⟩, -⟩ := hr
  refine encodeByte_injective ?_
  obtain ⟨hzeroH, -, honeH, -⟩ := hc
  simp only [Profile.ofResolution, ticks, hzeroH, honeH] at hpos ⊢
  omega

/-! ### Frames -/

theorem encodeBytes_getElem {p : Profile} {bs : List Byte} {i j : Nat} (hi : i < bs.length) (hj : j < 8) :
    (encodeBytes p bs)[8 * i + j]? = some (encodeBit p (bs[i].getLsbD (7 - j))) := by
  induction bs generalizing i with
  | nil => cases hi
  | cons b bs ih =>
    rw [encodeBytes_cons]
    cases i with
    | zero =>
      rw [List.getElem?_append_left (by rw [encodeByte_length]; omega), Nat.mul_zero, Nat.zero_add,
        encodeByte_getElem p b hj, List.getElem_cons_zero]
    | succ i =>
      rw [List.getElem?_append_right (by rw [encodeByte_length]; omega), encodeByte_length,
        show 8 * (i + 1) + j - 8 = 8 * i + j by omega, ih (Nat.lt_of_succ_lt_succ hi), List.getElem_cons_succ]

/-- No bit descriptor is RESET. -/
theorem resetPulse_not_mem_encodeBytes (p : Profile) (bs : List Byte) : resetPulse p ∉ encodeBytes p bs := by
  intro hmem
  rcases isBit_of_mem_encodeBytes hmem with h | h
  · exact resetPulse_ne_encodeBit p p false h
  · exact resetPulse_ne_encodeBit p p true h

/-- Settles O37: before the last element stand the bytes' bits, none of which is RESET. -/
theorem frameHasItsResetOnlyAtTheEnd : Obligations.FrameHasItsResetOnlyAtTheEnd := by
  refine fun p b => ⟨encodeFrame_length p b, fun i j hi hj => ?_, fun k => ⟨fun hk => ?_, fun hk => ?_⟩⟩
  · rw [encodeFrame, List.getElem?_append_left (by rw [encodeBytes_length]; omega), encodeBytes_getElem hi hj]
  · have hlt := (List.getElem?_eq_some_iff.mp hk).1
    rw [encodeFrame_length] at hlt
    by_contra hne
    rw [encodeFrame, List.getElem?_append_left (by rw [encodeBytes_length]; omega)] at hk
    exact resetPulse_not_mem_encodeBytes p b (List.mem_of_getElem? hk)
  · rw [encodeFrame, hk, ← encodeBytes_length p b, List.getElem?_concat_length]

/-! ### Segments and ticks (R148, R151) -/

@[simp] theorem segmentsOf_length (hz : Nat) (ds : List Descriptor) : (segmentsOf hz ds).length = 2 * ds.length := by
  induction ds with
  | nil => rfl
  | cons d ds ih =>
    rw [segmentsOf_cons, List.length_append, ih, List.length_cons, Descriptor.segments]
    simp only [List.length_cons, List.length_nil]
    omega

theorem totalTicks_append (xs ys : List Segment) : totalTicks (xs ++ ys) = totalTicks xs + totalTicks ys := by
  rw [totalTicks, List.map_append, List.sum_append, totalTicks, totalTicks]

/-- The length of bits that all last `tbit` ticks. -/
theorem totalTicks_bits {p : Profile} {hz tbit : Nat} (h0 : p.t0h + p.t0l = tbit) (h1 : p.t1h + p.t1l = tbit)
    {ds : List Descriptor} (hds : ∀ d ∈ ds, IsBit p d) : totalTicks (segmentsOf hz ds) = ds.length * tbit := by
  induction ds with
  | nil => exact (Nat.zero_mul tbit).symm
  | cons d ds ih =>
    obtain ⟨hd, hds⟩ := List.forall_mem_cons.mp hds
    have hbit : totalTicks (d.segments hz) = tbit := by
      rcases hd with rfl | rfl
      · exact h0
      · exact h1
    rw [segmentsOf_cons, totalTicks_append, hbit, ih hds, List.length_cons, Nat.succ_mul, Nat.add_comm]

/-- Settles O49: two segments a descriptor, `tbit` ticks a bit and `treset` for RESET. -/
theorem transmissionSize : Obligations.TransmissionSize := by
  refine fun p hz b => ⟨by rw [segmentsOf_length, encodeFrame_length], fun tbit h0 h1 => ?_⟩
  have hreset : totalTicks (segmentsOf hz [resetPulse p]) = p.treset :=
    Nat.add_sub_cancel' (Nat.div_le_self p.treset 2)
  rw [encodeFrame, segmentsOf_append, totalTicks_append, totalTicks_bits h0 h1 fun d => isBit_of_mem_encodeBytes,
    encodeBytes_length, hreset]

/-- The length in ticks is the number of ticks. -/
theorem totalTicks_eq_length (trace : List Segment) : totalTicks trace = (ticksOf trace).length := by
  simp only [totalTicks, ticksOf, List.length_flatMap, List.length_replicate]

/-- Two segments differ in level or clock, so `norm` does not merge them (log 11). -/
def Unmerged (a b : Segment) : Prop := ¬ (a.level = b.level ∧ a.resolutionHz = b.resolutionHz)

/-- A segment joined to a trace keeps every tick. -/
theorem ticksOf_joinSegment (seg : Segment) (trace : List Segment) :
    ticksOf (joinSegment seg trace) = ticksOf (seg :: trace) := by
  cases trace with
  | nil => rfl
  | cons next rest =>
    rw [joinSegment]
    split
    · next hsame =>
      obtain ⟨hlevel, hclock⟩ := hsame
      simp only [ticksOf_cons, List.replicate_add, hlevel, hclock, List.append_assoc]
    · rfl

/-- A segment joined to a trace without adjacent equals leaves it so. -/
theorem isChain_joinSegment {seg : Segment} {trace : List Segment} (h : trace.IsChain Unmerged) :
    (joinSegment seg trace).IsChain Unmerged := by
  cases trace with
  | nil => exact List.IsChain.singleton seg
  | cons next rest =>
    rw [joinSegment]
    split
    · next hsame =>
      obtain ⟨hlevel, hclock⟩ := hsame
      obtain ⟨hhead, hrest⟩ := List.isChain_cons.mp h
      refine List.isChain_cons.mpr ⟨fun y hy => ?_, hrest⟩
      have := hhead y hy
      rwa [Unmerged, ← hlevel, ← hclock] at this
    · next hdiff => exact List.isChain_cons_cons.mpr ⟨hdiff, h⟩

theorem ticksOf_normTrace (trace : List Segment) : ticksOf (normTrace trace) = ticksOf trace := by
  induction trace with
  | nil => rfl
  | cons seg trace ih =>
    rw [normTrace, List.foldr_cons, ticksOf_joinSegment, ticksOf_cons, ticksOf_cons]
    exact congrArg _ ih

theorem isChain_normTrace (trace : List Segment) : (normTrace trace).IsChain Unmerged := by
  induction trace with
  | nil => exact List.IsChain.nil
  | cons seg trace ih => exact isChain_joinSegment ih

/-- Settles O50: every join keeps the ticks and leaves adjacent segments unmerged. -/
theorem normMergesEqualLevels : Obligations.NormMergesEqualLevels := by
  refine fun trace => ⟨ticksOf_normTrace trace, ?_, fun i a b ha hb => ?_⟩
  · rw [totalTicks_eq_length, totalTicks_eq_length, ticksOf_normTrace]
  · obtain ⟨hi, rfl⟩ := List.getElem?_eq_some_iff.mp ha
    obtain ⟨hi', rfl⟩ := List.getElem?_eq_some_iff.mp hb
    exact List.isChain_iff_getElem.mp (isChain_normTrace trace) i hi'

end Sys2Proof.Machine

/-! PROOFS. ENC_STEP and the chunked encoder (40_encoder.md section 2). -/

namespace Sys2Proof.Machine

section EncStep

variable {s : State} {h : Nat} {st : Strip}

/-- An enabled ENC_STEP of a Live strip. -/
theorem runMove_encStep (hs : s.stripAt h = some st) (he : st.encEnabled s.config.memSymbols = true) :
    runMove (.encStep h) s = .next (s.setStrip h (st.encNext s.config.memSymbols)) := by
  simp only [runMove, stepEnc, hs, he, if_true, Strip.encStep_status]

/-- An ENC_STEP of a Live strip that is not enabled (log 3). -/
theorem runMove_encStep_disabled (hs : s.stripAt h = some st) (he : st.encEnabled s.config.memSymbols = false) :
    runMove (.encStep h) s = .next s :=
  runMove_of_not_enabled (.inr (.inl rfl)) (by simp only [State.enabled, hs, Option.any_some, he])

/-- A change of one strip, as a claim about the move that makes it. -/
theorem strip_move {m : Move} {st' : Strip} (hs : s.stripAt h = some st)
    (e : runMove m s = .next (s.setStrip h st')) :
    ∃ t, runMove m s = .next t ∧ t.stripAt h = some st' ∧ OtherSlotsSame h s t ∧ t = { s with slots := t.slots } :=
  ⟨_, e, setStrip_at hs rfl, otherSlots_setStrip hs rfl, rfl⟩

theorem Strip.encNext_data (hd : st.enc.state = .encodingData) (mem : Nat) :
    st.encNext mem = { st with
      symmem := st.symmem ++ encodeBytes st.profile ((st.fbBytes.drop st.enc.cursor).take (st.chunk mem))
      enc := ⟨dataStateAt (st.enc.cursor + st.chunk mem) st.fbLen, st.enc.cursor + st.chunk mem⟩ } := by
  simp only [Strip.encNext, hd, Strip.chunkBytes_eq]

theorem Strip.encNext_reset (hr : st.enc.state = .encodingReset) (mem : Nat) : st.encNext mem = st.encStepReset := by
  simp only [Strip.encNext, hr]

/-- The state ENC_STEP in EncodingData leaves the encoder in is no completion (R98, D19). -/
theorem dataStateAt_status (cursor len : Nat) : (dataStateAt cursor len).status = .moreData := by
  rw [dataStateAt]
  split <;> rfl



end EncStep

/-- Settles O38: with 8 places free in flight the step is enabled, and its chunk is as many bytes as fit. -/
theorem encStepEncodesWholeBytes : Obligations.EncStepEncodesWholeBytes := by
  refine fun s h st hs hd => ⟨fun ha hfree n hn => ?_, fun hdis => runMove_encStep_disabled hs ?_⟩
  · have he := Strip.encEnabled_iff.mpr ⟨ha, .inl ⟨hd, hfree⟩⟩
    have e := runMove_encStep hs he
    have hchunk : st.chunk s.config.memSymbols = n := hn.symm
    rw [Strip.encNext_data hd, hchunk] at e
    exact strip_move hs e
  · rw [Bool.eq_false_iff, ne_eq, Strip.encEnabled_iff]
    rintro ⟨ha, ⟨-, hfree⟩ | ⟨hr, -⟩⟩
    · rcases hdis with hdis | hdis
      · rw [ha] at hdis
        cases hdis
      · omega
    · rw [hd] at hr
      cases hr

/-- Settles O39: with one place free in flight the step is enabled, and pushes RESET. -/
theorem encStepPushesTheReset : Obligations.EncStepPushesTheReset := by
  refine fun s h st hs => ⟨fun hr ha hfree => ?_, fun hr hfull => runMove_encStep_disabled hs ?_,
    fun hdis => runMove_encStep_disabled hs ?_⟩
  · have he := Strip.encEnabled_iff.mpr ⟨ha, .inr ⟨hr, hfree⟩⟩
    have e := runMove_encStep hs he
    rw [Strip.encNext_reset hr] at e
    exact strip_move hs e
  · rw [Bool.eq_false_iff, ne_eq, Strip.encEnabled_iff, hr]
    rintro ⟨-, ⟨hd, -⟩ | ⟨-, hfree⟩⟩
    · cases hd
    · omega
  · rw [Bool.eq_false_iff, ne_eq, Strip.encEnabled_iff]
    rintro ⟨ha, hst⟩
    rcases hdis with hc | hi
    · rw [hc] at hst
      simp at hst
    · rw [ha] at hi
      cases hi

/-- Settles O58: the status is that of the state ENC_STEP leaves, and EncodingData is not left for Complete. -/
theorem encStepReturnsItsStatus : Obligations.EncStepReturnsItsStatus := by
  refine fun s h st hs he => ⟨_, _, st.encStep_status _, runMove_encStep hs he, rfl, fun hd => ?_, fun hr => ?_⟩
  · rw [Strip.encNext_data hd]
    exact dataStateAt_status _ _
  · rw [Strip.encNext_reset hr]
    rfl

/-- A SEQ_STEP takes nothing from what is still to be encoded. -/
theorem Strip.toEncode_of_symPop {st st' : Strip} {d : Descriptor} (e : st.symPop = some (d, st')) :
    st'.toEncode = st.toEncode := by
  obtain ⟨rest, -, -, rfl⟩ := Strip.symPop_eq_some.mp e
  rfl

/-- In a chunked run, what is pushed and what is still to be encoded make up what was to be encoded at its start. -/
theorem ChunkedRun.pushed_append_toEncode {mem : Nat} {st st' : Strip} {pushed : List Descriptor}
    (h : ChunkedRun mem st pushed st') : pushed ++ st'.toEncode = st.toEncode := by
  induction h with
  | start => rfl
  | push before enabled e hn ih =>
    next st₁ st₂ pushed new status =>
    rw [Strip.encStep_status] at e
    cases e
    obtain ⟨new', hpush, htake⟩ := st₁.encNext_owed mem
    rw [← ih, htake, List.append_cancel_left (hn.symm.trans hpush), List.append_assoc]
  | pop before e ih => rw [Strip.toEncode_of_symPop e, ih]

/-- Settles O41: at the start the whole frame is to be encoded, in Complete nothing is. -/
theorem chunkedEncoderPushesTheFrame : Obligations.ChunkedEncoderPushesTheFrame := by
  intro mem st st' pushed hrun hc
  have hsum := hrun.pushed_append_toEncode
  have hnone : st'.toEncode = [] := by simp only [Strip.toEncode, hc]
  rw [hnone, List.append_nil] at hsum
  exact hsum

end Sys2Proof.Machine

/-! PROOFS. The internal steps of the peripheral (42_peripheral.md section 2). -/

namespace Sys2Proof.Machine

theorem Strip.txDoneEnabled_iff {st : Strip} :
    st.txDoneEnabled = true ↔ st.active = true ∧ st.enc.state = .complete ∧ st.symmem = [] := by
  simp only [Strip.txDoneEnabled, Bool.and_eq_true, decide_eq_true_eq, List.isEmpty_iff, and_assoc]

section Peripheral

variable {s : State} {h : Nat} {st : Strip}

/-! ### Enabled steps of a Live strip -/

theorem runMove_txStart (hs : s.stripAt h = some st) (he : st.txStartEnabled = true) :
    runMove (.txStart h) s = .next (s.setStrip h st.txStart) := by
  simp only [runMove, stepTxStart, hs, he, if_true]

theorem runMove_seqStep {d : Descriptor} {rest : List Descriptor} (hs : s.stripAt h = some st)
    (ha : st.active = true) (hq : st.symmem = d :: rest) :
    runMove (.seqStep h) s = .next
      ((s.setStrip h { st with symmem := rest }).wireEmitAll st.gpio (d.segments st.resolutionHz)) := by
  simp only [runMove, stepSeq, hs, Strip.symPop_eq_some.mpr ⟨rest, ha, hq, rfl⟩]

theorem runMove_txDone (hs : s.stripAt h = some st) (he : st.txDoneEnabled = true) :
    runMove (.txDone h) s = .next (s.setStrip h st.txDone) := by
  simp only [runMove, stepTxDone, hs, he, if_true]

/-! ### Steps that no Live strip of the slot enables (log 3) -/

theorem runMove_txStart_disabled (hd : ∀ st, s.stripAt h = some st → st.txStartEnabled = false) :
    runMove (.txStart h) s = .next s :=
  runMove_of_not_enabled (.inl rfl) ((Option.any_eq_false _ _).mpr hd)

theorem runMove_seqStep_disabled (hd : ∀ st, s.stripAt h = some st → st.active = false ∨ st.symmem = []) :
    runMove (.seqStep h) s = .next s := by
  refine runMove_of_not_enabled (.inr (.inr (.inl rfl))) ((Option.any_eq_false _ _).mpr fun st hs => ?_)
  rcases hd st hs with ha | hq
  · rw [ha, Bool.false_and]
  · rw [hq, List.isEmpty_nil, Bool.not_true, Bool.and_false]

theorem runMove_txDone_disabled (hd : ∀ st, s.stripAt h = some st → st.txDoneEnabled = false) :
    runMove (.txDone h) s = .next s :=
  runMove_of_not_enabled (.inr (.inr (.inr rfl))) ((Option.any_eq_false _ _).mpr hd)

/-- What holds of the Live strip of a slot holds of every strip the slot's handle names. -/
theorem State.forall_stripAt {p : Strip → Prop} (hs : s.stripAt h = some st) (hp : p st) :
    ∀ st', s.stripAt h = some st' → p st' := fun _ hs' => Option.some.inj (hs.symm.trans hs') ▸ hp

/-- TX_DONE lowers the occupancy by one (R149). -/
theorem Strip.txDone_occupancy (ha : st.active = true) : st.txDone.occupancy + 1 = st.occupancy := by
  simp only [Strip.occupancy, Strip.txDone, ha, Bool.toNat_true, Bool.toNat_false, Nat.add_zero]

/-- An internal step takes no byte from the pool and gives none back. -/
theorem runMove_internal_poolFree {m : Move} {t : State} (hm : internalOf h m) (e : runMove m s = .next t) :
    t.poolFree = s.poolFree := by
  cases runMove_cases e with
  | idle | txStart | enc | seq | txDone => rfl
  | illegal | command | waitComplete | waitTimeout => simp [internalOf] at hm



end Peripheral

/-- Settles O42: the enabled step is its effect, which keeps the occupancy. -/
theorem txStartTakesOneTransmission : Obligations.TxStartTakesOneTransmission := by
  refine fun s h st hs => ⟨fun he ha hp => ?_, fun hd => ?_⟩
  · have hen := Strip.txStartEnabled_iff.mpr ⟨he, ha, hp⟩
    obtain ⟨t, e, hat, hother, hframe⟩ := strip_move hs (runMove_txStart hs hen)
    exact ⟨t, _, e, hat, rfl, Strip.txStart_occupancy hen, hother, hframe⟩
  · refine runMove_txStart_disabled (State.forall_stripAt hs ?_)
    rw [Bool.eq_false_iff, ne_eq, Strip.txStartEnabled_iff]
    rintro ⟨he, ha, hp⟩
    rcases hd with hd | hd | hd
    · exact Bool.false_ne_true (hd.symm.trans he)
    · exact Bool.false_ne_true (ha.symm.trans hd)
    · omega

/-- Settles O43: the two segments go to the wire of the strip's pin alone, and a good strip emits no empty one. -/
theorem seqStepEmitsOneDescriptor : Obligations.SeqStepEmitsOneDescriptor := by
  refine fun s h st hinv hs => ⟨fun d rest ha hq => ?_, fun hd => runMove_seqStep_disabled (State.forall_stripAt hs hd)⟩
  obtain ⟨-, hda, hdb⟩ := (hinv.live hs).head hq
  have hwire := fun g => State.wireEmitAll_wire (s := s.setStrip h { st with symmem := rest }) hinv.wires_wf st.gpio
    st.resolutionHz d g
  have hown := (hwire st.gpio).trans (if_pos rfl)
  refine ⟨_, runMove_seqStep hs ha hq, setStrip_at hs rfl, ?_, ?_, hda, hdb, fun g hg => (hwire g).trans (if_neg hg),
    otherSlots_setStrip hs rfl, rfl⟩
  · rw [hown]
    rfl
  · rw [hown]

/-- Settles O44: the invariant gives the cursor of a Complete encoder and the started stage of a busy strip. -/
theorem txDoneEndsTheTransmission : Obligations.TxDoneEndsTheTransmission := by
  refine fun s h st hinv hs => ⟨fun ha hc hq => ?_, fun hd => ?_⟩
  · have hen := Strip.txDoneEnabled_iff.mpr ⟨ha, hc, hq⟩
    have hok := hinv.live hs
    have hocc := Strip.txDone_occupancy ha
    have hcursor : st.enc.cursor = st.fbLen := by simpa only [Strip.CursorOk, hc] using hok.cursor_ok
    have henc : st.enc = ⟨.complete, st.fbLen⟩ := by rw [← hc, ← hcursor]
    have hstart : st.txDone.txStartEnabled = true ↔ 0 < st.txDone.pending :=
      Strip.txStartEnabled_iff.trans
        ⟨fun hst => hst.2.2, fun hp => ⟨hok.enabled_of_busy (by omega), rfl, hp⟩⟩
    obtain ⟨t, e, hat, hother, hframe⟩ := strip_move hs (runMove_txDone hs hen)
    exact ⟨t, _, e, hat, rfl, hocc, henc, hstart, hother, hframe⟩
  · refine runMove_txDone_disabled (State.forall_stripAt hs ?_)
    rw [Bool.eq_false_iff, ne_eq, Strip.txDoneEnabled_iff]
    rintro ⟨ha, hc, hq⟩
    rcases hd with hd | hd | hd
    · exact Bool.false_ne_true (hd.symm.trans ha)
    · exact hd hc
    · exact hd hq

/-- Settles O45: an internal step always answers, and one that no Live strip enables leaves the state. -/
theorem internalStepsReportNothing : Obligations.InternalStepsReportNothing := by
  refine fun s h => ⟨fun m hm => ?_, runMove_txStart_disabled, fun hd => ?_, runMove_seqStep_disabled,
    runMove_txDone_disabled⟩
  · obtain ⟨t, e, htasks, -⟩ := runMove_internal hm s
    exact ⟨t, e, htasks, runMove_internal_poolFree hm e⟩
  · exact runMove_of_not_enabled (.inr (.inl rfl)) ((Option.any_eq_false _ _).mpr hd)

/-- In a good state a wire is low between steps (R152). -/
theorem State.Inv.wire_low {s : State} (h : s.Inv) (g : Nat) : (s.wire g).level = .low := by
  by_cases hsilent : s.wire g = Wire.silent
  · rw [hsilent]
    rfl
  · exact (h.wires_ok _ (mem_of_cellRead_ne hsilent)).level_low

/-- No internal step of an idle slot is enabled. -/
theorem enabled_of_idle {s : State} {h : Nat} {m : Move} (hm : internalOf h m)
    (hidle : ∀ st, s.stripAt h = some st → st.pending = 0 ∧ st.active = false) : s.enabled m = false := by
  cases hs : s.stripAt h with
  | none => exact enabled_absent hm hs
  | some st =>
    obtain ⟨hp, ha⟩ := hidle st hs
    rcases hm with rfl | rfl | rfl | rfl <;>
      simp [State.enabled, hs, Strip.txStartEnabled, Strip.encEnabled, Strip.txDoneEnabled, hp, ha]

/-- An internal step of an idle slot leaves the state (log 3). -/
theorem runMove_of_idle {s : State} {h : Nat} {m : Move} (hm : internalOf h m)
    (hidle : ∀ st, s.stripAt h = some st → st.pending = 0 ∧ st.active = false) : runMove m s = .next s :=
  runMove_of_not_enabled hm (enabled_of_idle hm hidle)

/-- No wait of a task ends where it does not wait. -/
theorem runMove_wait_disabled {s : State} {task : Nat} (hw : s.waitOf task = none) :
    runMove (.waitComplete task) s = .next s ∧ runMove (.waitTimeout task) s = .next s := by
  simp only [runMove, stepWaitComplete, stepWaitTimeout, hw, and_self]

/-- Settles O51: every strip is idle and no task waits. -/
theorem quiescentStateHasNoInternalStep : Obligations.QuiescentStateHasNoInternalStep := by
  rintro s hinv ⟨hwaits, -, hidle⟩
  have hslot : ∀ h st, s.stripAt h = some st → st.pending = 0 ∧ st.active = false :=
    fun h st hs => hidle st (State.mem_liveStrips.mpr ⟨h, hs⟩)
  have hwait : ∀ task, s.waitOf task = none := fun task =>
    Option.bind_eq_none_iff.mpr fun t ht => hwaits t (List.mem_of_getElem? ht)
  refine ⟨fun m hm => ?_, fun st hst => ?_, hinv.wire_low⟩
  · cases m with
    | issue => cases hm
    | waitComplete task => exact (runMove_wait_disabled (hwait task)).1
    | waitTimeout task => exact (runMove_wait_disabled (hwait task)).2
    | txStart h => exact runMove_of_idle (.inl rfl) (hslot h)
    | encStep h => exact runMove_of_idle (.inr (.inl rfl)) (hslot h)
    | seqStep h => exact runMove_of_idle (.inr (.inr (.inl rfl))) (hslot h)
    | txDone h => exact runMove_of_idle (.inr (.inr (.inr rfl))) (hslot h)
  · exact (hinv.strips_ok st hst).symmem_idle (hidle st hst).2

end Sys2Proof.Machine

/-! PROOFS. Rules over all steps: what a step leaves of a slot, a strip and a wire (10_state.md section 10). -/

namespace Sys2Proof.Machine

/-- What a host command leaves of a strip that it keeps: all but buffer, output stage and queue, and the queue does
not shrink. -/
structure HostChange (st st' : Strip) : Prop where
  frame : st' = { st with fb := st'.fb, enabled := st'.enabled, pending := st'.pending }
  pending_le : st.pending ≤ st'.pending

theorem HostChange.enc_eq {st st' : Strip} (h : HostChange st st') : st'.enc = st.enc := by rw [h.frame]

theorem HostChange.active_eq {st st' : Strip} (h : HostChange st st') : st'.active = st.active := by rw [h.frame]

theorem HostChange.symmem_eq {st st' : Strip} (h : HostChange st st') : st'.symmem = st.symmem := by rw [h.frame]

theorem hostChange_transmit {n : Nat} {st st' : Strip} (e : st.transmit n = some st') : HostChange st st' := by
  obtain ⟨-, -, rfl⟩ := Strip.transmit_eq_some.mp e
  exact ⟨rfl, Nat.le_succ _⟩

theorem StripCommand.hostChange {c : Config} {st st' : Strip} {i : Instr} (e : StripCommand c st i st') :
    HostChange st st' := by
  cases e with
  | setPixel _ _ _ _ _ hs =>
    obtain ⟨hframe, -, -⟩ := Strip.fbStore_keeps hs
    rw [hframe]
    exact ⟨rfl, Nat.le_refl _⟩
  | clear => exact ⟨rfl, Nat.le_refl _⟩
  | refresh _ _ ht => exact hostChange_transmit ht
  | enable _ _ he =>
    obtain ⟨-, rfl⟩ := Strip.enableStage_eq_some.mp he
    exact ⟨rfl, Nat.le_refl _⟩
  | disable _ _ hd =>
    obtain ⟨-, -, rfl⟩ := Strip.disableStage_eq_some.mp hd
    exact ⟨rfl, Nat.le_refl _⟩

/-- What a move does to a strip that is Live before and after it. -/
inductive StripEffect (mem h : Nat) (st : Strip) : Move → Strip → Prop
  | same (m : Move) : StripEffect mem h st m st
  | host (t : Nat) (w : CommandWord) (st' : Strip) (hc : HostChange st st') : StripEffect mem h st (.issue t w) st'
  | txStart (he : st.txStartEnabled = true) : StripEffect mem h st (.txStart h) st.txStart
  | enc (he : st.encEnabled mem = true) : StripEffect mem h st (.encStep h) (st.encNext mem)
  | seq (d : Descriptor) (rest : List Descriptor) (ha : st.active = true) (hq : st.symmem = d :: rest) :
      StripEffect mem h st (.seqStep h) { st with symmem := rest }
  | txDone (he : st.txDoneEnabled = true) : StripEffect mem h st (.txDone h) st.txDone

/-- Everything a move can do to a strip that stays Live. -/
theorem runMove_strip {m : Move} {s t : State} {h : Nat} {st st' : Strip} (e : runMove m s = .next t)
    (hs : s.stripAt h = some st) (hs' : t.stripAt h = some st') : StripEffect s.config.memSymbols h st m st' := by
  have heff := runMove_slot e h
  rw [hs, hs'] at heff
  cases heff with
  | same => exact .same m
  | command t w i _ _ _ _ hc => exact .host t w st' hc.hostChange
  | waits t w _ _ _ _ ht => exact .host t w st' (hostChange_transmit ht)
  | txStart _ he => exact .txStart he
  | enc _ he => exact .enc he
  | seq _ d rest ha hq => exact .seq d rest ha hq
  | txDone _ he => exact .txDone he

/-- A strip with work stays Live across a move (R126, R153). -/
theorem runMove_keeps_busy {m : Move} {s t : State} {h : Nat} {st : Strip} (e : runMove m s = .next t)
    (hs : s.stripAt h = some st) (hocc : 0 < st.occupancy) : ∃ st', t.stripAt h = some st' := by
  have heff := runMove_slot e h
  rw [hs] at heff
  generalize t.stripAt h = o at heff ⊢
  cases heff with
  | destroyed _ _ _ _ ho => omega
  | same | command | waits | txStart | enc | seq | txDone => exact ⟨_, rfl⟩

theorem step_strip {s t : State} {h : Nat} {st st' : Strip} (e : step s = .next t) (hs : s.stripAt h = some st)
    (hs' : t.stripAt h = some st') : StripEffect s.config.memSymbols h st s.nextMove st' := by
  rw [← s.takeMove_config]
  exact runMove_strip (s := s.takeMove) e ((s.takeMove_stripAt h).trans hs) hs'

/-- ENC_STEP moves the encoder on from EncodingData to EncodingReset to Complete, its cursor never back (R96). -/
theorem encNext_transition {mem : Nat} {st : Strip} (he : st.encEnabled mem = true) :
    st.enc.cursor ≤ (st.encNext mem).enc.cursor ∧
      ((st.enc.state = .encodingData ∧ (st.encNext mem).enc.state = .encodingData) ∨
        (st.enc.state = .encodingData ∧ (st.encNext mem).enc.state = .encodingReset) ∨
        (st.enc.state = .encodingReset ∧ (st.encNext mem).enc.state = .complete)) := by
  obtain ⟨-, ⟨hd, -⟩ | ⟨hr, -⟩⟩ := Strip.encEnabled_iff.mp he
  · rw [Strip.encNext_data hd]
    refine ⟨Nat.le_add_right _ _, ?_⟩
    by_cases hend : st.enc.cursor + st.chunk mem = st.fbLen
    · exact .inr (.inl ⟨hd, if_pos hend⟩)
    · exact .inl ⟨hd, if_neg hend⟩
  · rw [Strip.encNext_reset hr]
    exact ⟨Nat.le_refl _, .inr (.inr ⟨hr, rfl⟩)⟩

/-- Settles O40: of the moves only ENC_STEP and TX_START touch the encoder. -/
theorem encoderTransitions : Obligations.EncoderTransitions := by
  intro s t h st st' e hs hs'
  have heff := step_strip e hs hs'
  generalize s.nextMove = m at heff ⊢
  cases heff with
  | same => exact .inl rfl
  | host _ _ _ hc => exact .inl hc.enc_eq
  | txStart => exact .inr (.inl ⟨rfl, rfl⟩)
  | enc he => exact .inr (.inr ⟨rfl, encNext_transition he⟩)
  | seq => exact .inl rfl
  | txDone => exact .inl rfl

/-- Settles O53: each effect on a slot other than none is the slot's own. -/
theorem slotsAreIsolated : Obligations.SlotsAreIsolated := by
  intro s t k e hne
  have heff := step_slot e k
  generalize s.nextMove = m at heff ⊢
  generalize hold : s.stripAt k = old at heff hne ⊢
  generalize t.stripAt k = new at heff hne
  cases heff with
  | same => exact absurd rfl hne
  | created task w format gpio n hz p hd hf =>
    obtain ⟨-, -, hleast⟩ := State.freeSlot_eq_some.mp hf
    exact .inr ⟨task, w, _, rfl, hd, .inr ⟨format, gpio, n, hz, rfl, rfl, fun j hj => by
      rw [← s.takeMove_stripAt]
      exact hleast j hj⟩⟩
  | command task w i _ _ hd hh => exact .inr ⟨task, w, i, rfl, hd, .inl hh⟩
  | waits task w timeoutMs _ _ hd => exact .inr ⟨task, w, _, rfl, hd, .inl rfl⟩
  | destroyed task w _ hd => exact .inr ⟨task, w, _, rfl, hd, .inl rfl⟩
  | txStart => exact .inl (.inl rfl)
  | enc => exact .inl (.inr (.inl rfl))
  | seq => exact .inl (.inr (.inr (.inl rfl)))
  | txDone => exact .inl (.inr (.inr (.inr rfl)))

/-- A command that changes the buffer of the strip it names is a SET_PIXEL or a CLEAR. -/
theorem StripCommand.writes_fb {c : Config} {st st' : Strip} {i : Instr} {k : Nat} (e : StripCommand c st i st')
    (hk : handleOf i = some k) (hne : st'.fb ≠ st.fb) :
    (∃ index sample, i = .setPixel k index sample) ∨ i = .clear k := by
  cases e with
  | setPixel _ index sample => exact .inl ⟨index, sample, by cases hk; rfl⟩
  | clear => exact .inr (by cases hk; rfl)
  | refresh _ _ ht =>
    obtain ⟨-, -, rfl⟩ := Strip.transmit_eq_some.mp ht
    exact absurd rfl hne
  | enable _ _ he =>
    obtain ⟨-, rfl⟩ := Strip.enableStage_eq_some.mp he
    exact absurd rfl hne
  | disable _ _ hd =>
    obtain ⟨-, -, rfl⟩ := Strip.disableStage_eq_some.mp hd
    exact absurd rfl hne

/-- Settles O55: no other effect on a strip that stays Live touches its buffer. -/
theorem frameBufferIsWrittenOnlyBySetPixelAndClear : Obligations.FrameBufferIsWrittenOnlyBySetPixelAndClear := by
  intro s t k st st' e hs hs' hne
  have heff := step_slot e k
  rw [hs, hs'] at heff
  generalize s.nextMove = m at heff ⊢
  cases heff with
  | command task w i _ _ hd hh hc =>
    refine ⟨task, w, rfl, ?_⟩
    rcases hc.writes_fb hh hne with ⟨index, sample, rfl⟩ | rfl
    · exact .inl ⟨index, sample, hd⟩
    · exact .inr hd
  | waits _ _ _ _ _ _ ht =>
    obtain ⟨-, -, rfl⟩ := Strip.transmit_eq_some.mp ht
    exact absurd rfl hne
  | enc => exact absurd (by simp) hne
  | same | txStart | seq | txDone => exact absurd rfl hne

/-- The configuration and the tick registers of a strip survive every effect on it (R24, R25). -/
theorem StripEffect.configuration {mem h : Nat} {st st' : Strip} {m : Move} (e : StripEffect mem h st m st') :
    st'.ledCount = st.ledCount ∧ st'.format = st.format ∧ st'.gpio = st.gpio ∧
      st'.resolutionHz = st.resolutionHz ∧ st'.profile = st.profile := by
  cases e with
  | host _ _ _ hc =>
    rw [hc.frame]
    exact ⟨rfl, rfl, rfl, rfl, rfl⟩
  | enc => simp
  | same | txStart | seq | txDone => exact ⟨rfl, rfl, rfl, rfl, rfl⟩

/-- Settles O56: no effect of a step touches the parameters or a strip's configuration. -/
theorem configurationIsReadOnly : Obligations.ConfigurationIsReadOnly := by
  refine fun s t e => ⟨?_, fun k st st' hs hs' => (step_strip e hs hs').configuration⟩
  exact (runMove_inputs (s := s.takeMove) e).1.trans s.takeMove_config

/-- Settles O57: a strip with work is not destroyed, and each effect on it takes work only as R153 allows. -/
theorem noTransmissionIsCancelled : Obligations.NoTransmissionIsCancelled := by
  intro s t h st e hs hocc
  obtain ⟨st', hs'⟩ := runMove_keeps_busy (s := s.takeMove) e ((s.takeMove_stripAt h).trans hs) hocc
  refine ⟨st', hs', ?_⟩
  have heff := step_strip e hs hs'
  generalize s.nextMove = m at heff ⊢
  cases heff with
  | same => exact ⟨.inl (Nat.le_refl _), .inl, .inl List.prefix_rfl⟩
  | host _ _ _ hc =>
    exact ⟨.inl hc.pending_le, fun ha => .inl (hc.active_eq.trans ha), .inl (hc.symmem_eq ▸ List.prefix_rfl)⟩
  | txStart he =>
    obtain ⟨-, -, hp⟩ := Strip.txStartEnabled_iff.mp he
    exact ⟨.inr ⟨rfl, Nat.sub_add_cancel hp, rfl⟩, fun _ => .inl rfl, .inl List.prefix_rfl⟩
  | enc =>
    obtain ⟨new, hpush, -⟩ := st.encNext_owed s.config.memSymbols
    exact ⟨.inl (by simp), fun ha => .inl (by simpa using ha), .inl (hpush ▸ List.prefix_append _ _)⟩
  | seq d rest ha hq => exact ⟨.inl (Nat.le_refl _), .inl, .inr ⟨rfl, d, hq⟩⟩
  | txDone he =>
    obtain ⟨-, hc, hq⟩ := Strip.txDoneEnabled_iff.mp he
    exact ⟨.inl (Nat.le_refl _), fun _ => .inr ⟨rfl, hc, hq⟩, .inl List.prefix_rfl⟩

/-! ### Wires -/

theorem exec_wires {i : Instr} {s t : State} (e : exec i s = .next t) : t.wires = s.wires := by
  cases exec_cases e <;> rfl

/-- A move that changes a wire of a good state is the SEQ_STEP of the Live strip on its pin (R33, R147). -/
theorem runMove_wire {m : Move} {s t : State} {g : Nat} (hinv : s.Inv) (e : runMove m s = .next t)
    (hne : t.wire g ≠ s.wire g) :
    ∃ h st d rest, m = .seqStep h ∧ s.stripAt h = some st ∧ st.gpio = g ∧ st.active = true ∧
      st.symmem = d :: rest ∧
      (t.wire g).trace = (s.wire g).trace ++ d.segments st.resolutionHz ∧ (t.wire g).level = d.levelB := by
  cases runMove_cases e with
  | command task _ _ _ _ _ _ hx =>
    exact absurd (State.wire_congr (exec_wires (s := { s with issuer := task }) hx) g) hne
  | seq h st d rest hs ha hq =>
    have hwire := State.wireEmitAll_wire (s := s.setStrip h { st with symmem := rest }) hinv.wires_wf st.gpio
      st.resolutionHz d g
    by_cases hg : g = st.gpio
    · rw [if_pos hg] at hwire
      subst hg
      exact ⟨h, st, d, rest, rfl, hs, rfl, ha, hq, congrArg Wire.trace hwire, congrArg Wire.level hwire⟩
    · rw [if_neg hg] at hwire
      exact absurd hwire hne
  | idle | illegal | waitComplete | waitTimeout | txStart | enc | txDone => exact absurd rfl hne

/-- Settles O54: a step is its move, and taking an input changes no wire and no slot. -/
theorem wireIsWrittenOnlyByItsSequencer : Obligations.WireIsWrittenOnlyByItsSequencer := by
  intro s t g hinv e hne
  have hwire := runMove_wire (g := g) hinv.takeMove e
  simp only [State.takeMove_wire, State.takeMove_stripAt] at hwire
  exact hwire hne

end Sys2Proof.Machine

/-! PROOFS. The transmission in flight: its progress, its end and what it puts on the wire (42_peripheral.md
section 3). -/

namespace Sys2Proof.Machine

/-! ### The work left of one strip -/

/-- How many transitions the encoder has before it (R96). -/
def EncState.transitionsLeft : EncState → Nat
  | .encodingData => 2
  | .encodingReset => 1
  | .complete => 0

theorem Strip.workLeft_eq (st : Strip) :
    st.workLeft = (st.fbLen - st.enc.cursor) + st.owed.length + st.active.toNat + st.enc.state.transitionsLeft := by
  cases hs : st.enc.state <;> simp only [Strip.workLeft, hs] <;> rfl

/-- An ENC_STEP owes the wire what was owed before it: what it pushes it takes from what is to be encoded. -/
theorem Strip.encNext_owed_eq (mem : Nat) (st : Strip) : (st.encNext mem).owed = st.owed := by
  obtain ⟨new, hpush, htake⟩ := st.encNext_owed mem
  rw [Strip.owed, hpush, Strip.owed, htake, List.append_assoc]

/-- A SEQ_STEP pays the head of what is owed. -/
theorem Strip.owed_of_cons {st : Strip} {d : Descriptor} {rest : List Descriptor} (hq : st.symmem = d :: rest) :
    st.owed = d :: ({ st with symmem := rest } : Strip).owed := by
  rw [Strip.owed, hq]
  rfl

/-- The length of what is still to be encoded with nothing in symbol memory bounds the work left (R154). -/
theorem Strip.workLeft_le {st : Strip} (hq : st.symmem = []) : st.workLeft ≤ 9 * st.fbLen + 4 := by
  have hactive : st.active.toNat ≤ 1 := Bool.toNat_le _
  rw [Strip.workLeft_eq, Strip.owed, hq, List.nil_append]
  cases hs : st.enc.state with
  | encodingData =>
    have hlen : st.toEncode.length = 8 * (st.fbLen - st.enc.cursor) + 1 := by
      simp only [Strip.toEncode, hs, encodeFrame_length, List.length_drop, Strip.fbBytes_length]
    rw [hlen, EncState.transitionsLeft]
    omega
  | encodingReset =>
    have hlen : st.toEncode.length = 1 := by simp only [Strip.toEncode, hs, List.length_singleton]
    rw [hlen, EncState.transitionsLeft]
    omega
  | complete =>
    have hlen : st.toEncode.length = 0 := by simp only [Strip.toEncode, hs, List.length_nil]
    rw [hlen, EncState.transitionsLeft]
    omega

theorem Strip.workLeft_seqStep {st : Strip} {d : Descriptor} {rest : List Descriptor} (hq : st.symmem = d :: rest) :
    ({ st with symmem := rest } : Strip).workLeft < st.workLeft := by
  rw [Strip.workLeft_eq, Strip.workLeft_eq st, Strip.owed_of_cons hq, List.length_cons]
  show st.fbLen - st.enc.cursor + _ + st.active.toNat + st.enc.state.transitionsLeft < _
  omega

theorem Strip.workLeft_txDone {st : Strip} (ha : st.active = true) : st.txDone.workLeft < st.workLeft := by
  rw [Strip.workLeft_eq, Strip.workLeft_eq st, ha]
  exact Nat.add_lt_add_right (Nat.lt_succ_self _) _

/-- With 8 places free and bytes to encode an ENC_STEP encodes one at least. -/
theorem Strip.chunk_pos {mem : Nat} {st : Strip} (hc : st.enc.cursor < st.fbLen) (hfree : st.symmem.length + 8 ≤ mem) :
    1 ≤ st.chunk mem := by
  refine Nat.le_min.mpr ⟨by omega, ?_⟩
  rw [Strip.symFree, Nat.le_div_iff_mul_le (by decide)]
  omega

theorem Strip.Ok.workLeft_encNext {c : Config} {st : Strip} (hok : st.Ok c) {mem : Nat}
    (he : st.encEnabled mem = true) : (st.encNext mem).workLeft < st.workLeft := by
  rw [Strip.workLeft_eq, Strip.workLeft_eq st, Strip.encNext_owed_eq, Strip.encNext_active, Strip.encNext_fbLen]
  obtain ⟨-, ⟨hd, hfree⟩ | ⟨hr, -⟩⟩ := Strip.encEnabled_iff.mp he
  · have hcursor : st.enc.cursor < st.fbLen := by simpa only [Strip.CursorOk, hd] using hok.cursor_ok
    have hchunk := Strip.chunk_pos hcursor hfree
    have hstate : (dataStateAt (st.enc.cursor + st.chunk mem) st.fbLen).transitionsLeft ≤ 2 := by
      rw [dataStateAt]
      split <;> decide
    rw [Strip.encNext_data hd, hd]
    show st.fbLen - (st.enc.cursor + st.chunk mem) + _ + _ +
      (dataStateAt (st.enc.cursor + st.chunk mem) st.fbLen).transitionsLeft < _ + EncState.transitionsLeft .encodingData
    rw [EncState.transitionsLeft]
    omega
  · rw [Strip.encNext_reset hr, hr]
    exact Nat.lt_succ_self _

/-! ### A transmission in flight goes on -/

section InFlight

variable {s : State} {h : Nat} {st : Strip}

/-- The move is a step of slot `h` that works on its transmission in flight. -/
def WorksOn (h : Nat) (m : Move) : Prop := m = .encStep h ∨ m = .seqStep h ∨ m = .txDone h

theorem WorksOn.internal {m : Move} (hm : WorksOn h m) : internalOf h m := .inr hm

/-- In a good state some step that works on a transmission in flight is enabled (R154). -/
theorem exists_worksOn_enabled (hinv : s.Inv) (hs : s.stripAt h = some st) (ha : st.active = true) :
    ∃ m, WorksOn h m ∧ s.enabled m = true := by
  have hmem := hinv.memSymbols
  by_cases hq : st.symmem = []
  · have hlen : st.symmem.length = 0 := by rw [hq]; rfl
    cases hstate : st.enc.state with
    | encodingData =>
      have hfree : st.symmem.length + 8 ≤ s.config.memSymbols := by omega
      have he := Strip.encEnabled_iff.mpr ⟨ha, .inl ⟨hstate, hfree⟩⟩
      exact ⟨.encStep h, .inl rfl, by simp only [State.enabled, hs, Option.any_some, he]⟩
    | encodingReset =>
      have hfree : st.symmem.length < s.config.memSymbols := by omega
      have he := Strip.encEnabled_iff.mpr ⟨ha, .inr ⟨hstate, hfree⟩⟩
      exact ⟨.encStep h, .inl rfl, by simp only [State.enabled, hs, Option.any_some, he]⟩
    | complete =>
      have he := Strip.txDoneEnabled_iff.mpr ⟨ha, hstate, hq⟩
      exact ⟨.txDone h, .inr (.inr rfl), by simp only [State.enabled, hs, Option.any_some, he]⟩
  · refine ⟨.seqStep h, .inr (.inl rfl), ?_⟩
    simp only [State.enabled, hs, Option.any_some, ha, Bool.true_and, Bool.not_eq_true', List.isEmpty_eq_false_iff]
    exact hq

/-- Such a step, where it is enabled, takes work away and keeps queue and buffer, whatever the inputs to come. -/
theorem worksOn_enabled_lowers (hinv : s.Inv) (hs : s.stripAt h = some st) {m : Move} (hm : WorksOn h m)
    (he : s.enabled m = true) :
    ∃ (t : State) (st' : Strip), (∀ ms, runMove m { s with schedule := ms } = .next { t with schedule := ms }) ∧
      t.stripAt h = some st' ∧ st'.workLeft < st.workLeft ∧ st'.pending = st.pending ∧ st'.fb = st.fb := by
  rcases hm with rfl | rfl | rfl
  · have hen : st.encEnabled s.config.memSymbols = true := by
      simpa only [State.enabled, hs, Option.any_some] using he
    exact ⟨_, _, fun ms => runMove_encStep (s := { s with schedule := ms }) hs hen, setStrip_at hs rfl,
      (hinv.live hs).workLeft_encNext hen, by simp, by simp⟩
  · have hen : st.active = true ∧ st.symmem ≠ [] := by
      simpa only [State.enabled, hs, Option.any_some, Bool.and_eq_true, Bool.not_eq_true', List.isEmpty_eq_false_iff]
        using he
    obtain ⟨ha, hne⟩ := hen
    obtain ⟨d, rest, hq⟩ := List.exists_cons_of_ne_nil hne
    exact ⟨(s.setStrip h { st with symmem := rest }).wireEmitAll st.gpio (d.segments st.resolutionHz), _,
      fun ms => runMove_seqStep (s := { s with schedule := ms }) hs ha hq, setStrip_at hs rfl,
      Strip.workLeft_seqStep hq, rfl, rfl⟩
  · have hen : st.txDoneEnabled = true := by
      simpa only [State.enabled, hs, Option.any_some] using he
    obtain ⟨ha, -⟩ := Strip.txDoneEnabled_iff.mp hen
    exact ⟨_, _, fun ms => runMove_txDone (s := { s with schedule := ms }) hs hen, setStrip_at hs rfl,
      Strip.workLeft_txDone ha, rfl, rfl⟩

/-- In flight there is work left: TX_DONE at least. -/
theorem Strip.workLeft_pos (ha : st.active = true) : 0 < st.workLeft := by
  rw [Strip.workLeft_eq, ha, Bool.toNat_true]
  omega

/-- The strip's own steps end its transmission, no more of them than `n` where that is all the work left. -/
theorem exists_run_to_end {n : Nat} (hinv : s.Inv) (hs : s.stripAt h = some st) (ha : st.active = true)
    (hn : st.workLeft ≤ n) :
    ∃ moves : List Move, (∀ m ∈ moves, internalOf h m) ∧ moves.length ≤ n ∧
      ∃ t st', Host.Core.run core moves.length { s with schedule := moves } = .next t ∧
        t.stripAt h = some st' ∧ st'.active = false ∧ st'.pending = st.pending ∧ st'.fb = st.fb := by
  induction n generalizing s st with
  | zero => exact absurd (Strip.workLeft_pos ha) (by omega)
  | succ n ih =>
    obtain ⟨m, hm, he⟩ := exists_worksOn_enabled hinv hs ha
    obtain ⟨t, st', e, hs', hlt, hp, hf⟩ := worksOn_enabled_lowers hinv hs hm he
    cases ha' : st'.active with
    | false =>
      refine ⟨[m], fun x hx => List.mem_singleton.mp hx ▸ hm.internal, Nat.succ_le_succ (Nat.zero_le n), _, st',
        run_cons (e []), hs', ha', hp, hf⟩
    | true =>
      obtain ⟨ms, hms, hlen, u, st'', hrun, hs'', ha'', hp', hf'⟩ :=
        ih (hinv.runMove (e s.schedule)) hs' ha' (by omega)
      exact ⟨m :: ms, List.forall_mem_cons.mpr ⟨hm.internal, hms⟩, Nat.succ_le_succ hlen, u, st'',
        (run_cons (e ms)).trans hrun, hs'', ha'', hp'.trans hp, hf'.trans hf⟩



end InFlight

/-- Settles O46: in flight some step is enabled that works on the transmission, and it takes work away. -/
theorem transmissionAlwaysProgresses : Obligations.TransmissionAlwaysProgresses := by
  refine fun s h st hinv hs ha => ⟨Strip.workLeft_le, ?_⟩
  obtain ⟨m, hm, he⟩ := exists_worksOn_enabled hinv hs ha
  obtain ⟨t, st', e, hs', hlt, -⟩ := worksOn_enabled_lowers hinv hs hm he
  exact ⟨m, _, st', hm.internal, e s.schedule, hs', hlt⟩

/-- Settles O47: each step on the way takes work away, so it ends within the work left. -/
theorem transmissionCanComplete : Obligations.TransmissionCanComplete :=
  fun _ _ st hinv hs ha => exists_run_to_end hinv hs ha (Nat.le_refl st.workLeft)

/-! ### The wire during a transmission (R57, R150) -/

/-- What is owed depends on no field a host command changes but the buffer. -/
theorem HostChange.owed_eq {st st' : Strip} (h : HostChange st st') (hfb : st'.fb = st.fb) : st'.owed = st.owed := by
  rw [h.frame, hfb]
  rfl

/-- No two Live strips share a pin (R40). -/
theorem State.Inv.pin_unique {s : State} {h k : Nat} {st x : Strip} (hinv : s.Inv) (hs : s.stripAt h = some st)
    (hx : s.stripAt k = some x) (hg : x.gpio = st.gpio) : k = h := by
  by_contra hne
  obtain ⟨before, after, hlive, -, hclear⟩ := State.liveStrips_split (State.stripAt_lt hs)
  have hmem : x ∈ before ++ after := by
    rw [← hclear]
    exact State.mem_liveStrips.mpr ⟨k, by rw [State.clearSlot_stripAt, if_neg hne, hx]⟩
  have hpins := hinv.pins_distinct
  rw [hlive, hs, Option.toList_some, List.append_assoc, List.singleton_append, List.map_append, List.map_cons,
    List.nodup_middle, ← List.map_append, List.nodup_cons] at hpins
  exact hpins.1 (List.mem_map.mpr ⟨x, hmem, hg⟩)

/-- Across an effect but SEQ_STEP on a strip that stays in flight with its buffer as it was, it owes the same. -/
theorem StripEffect.owed_eq {mem h : Nat} {st st' : Strip} {m : Move} (e : StripEffect mem h st m st')
    (hm : m ≠ .seqStep h) (ha : st.active = true) (ha' : st'.active = true) (hfb : st'.fb = st.fb) :
    st'.owed = st.owed := by
  cases e with
  | same => rfl
  | host _ _ _ hc => exact hc.owed_eq hfb
  | txStart he =>
    obtain ⟨-, hidle, -⟩ := Strip.txStartEnabled_iff.mp he
    exact absurd (hidle.symm.trans ha) Bool.false_ne_true
  | enc => exact st.encNext_owed_eq mem
  | seq => exact absurd rfl hm
  | txDone => cases ha'

/-- Across a move during which a strip stays in flight with its buffer as it was, what the wire of its pin has carried
and what is still owed to it make up the same trace. -/
theorem trace_append_owed {m : Move} {s t : State} {h : Nat} {st st' : Strip} (hinv : s.Inv)
    (e : runMove m s = .next t) (hs : s.stripAt h = some st) (hs' : t.stripAt h = some st')
    (ha : st.active = true) (ha' : st'.active = true) (hfb : st'.fb = st.fb) :
    (t.wire st.gpio).trace ++ segmentsOf st.resolutionHz st'.owed =
      (s.wire st.gpio).trace ++ segmentsOf st.resolutionHz st.owed := by
  by_cases hm : m = .seqStep h
  · subst hm
    obtain ⟨hstep, hidle⟩ := seqStepEmitsOneDescriptor s h st hinv hs
    cases hq : st.symmem with
    | nil =>
      cases e.symm.trans (hidle (.inr hq))
      cases hs.symm.trans hs'
      rfl
    | cons d rest =>
      obtain ⟨u, hu, hsu, htrace, -⟩ := hstep d rest ha hq
      cases e.symm.trans hu
      cases hsu.symm.trans hs'
      rw [htrace, Strip.owed_of_cons hq, segmentsOf_cons, List.append_assoc]
      rfl
  · have hwire : t.wire st.gpio = s.wire st.gpio := by
      by_contra hne
      obtain ⟨k, x, -, -, rfl, hx, hg, -⟩ := runMove_wire hinv e hne
      exact hm (congrArg Move.seqStep (hinv.pin_unique hs hx hg))
    rw [hwire, (runMove_strip e hs hs').owed_eq hm ha ha' hfb]

/-- A good state in which the strip of slot `h` uses pin `g` at clock `hz`, and the trace of its wire with what is
still owed to it is `total`. -/
structure Sending (h g hz : Nat) (total : List Segment) (s : State) : Prop where
  inv : s.Inv
  strip : ∀ st, s.stripAt h = some st → st.gpio = g ∧ st.resolutionHz = hz ∧
    (s.wire g).trace ++ segmentsOf hz st.owed = total

/-- Throughout a transmission its strip is in flight, with the buffer it holds all along. -/
theorem Transmitting.strip {h : Nat} {fb : Memory} {s t : State} (ht : Transmitting h fb s t) :
    ∃ st, t.stripAt h = some st ∧ st.active = true ∧ st.fb = fb := by
  cases ht with
  | start hs ha hf => exact ⟨_, hs, ha, hf⟩
  | step _ _ hs ha hf => exact ⟨_, hs, ha, hf⟩

/-- Throughout a transmission the trace and what is owed stay the same total, whatever other agents do (R57). -/
theorem Sending.transmitting {h g hz : Nat} {fb : Memory} {total : List Segment} {s t : State}
    (hsend : Sending h g hz total s) (ht : Transmitting h fb s t) : Sending h g hz total t := by
  induction ht with
  | start => exact hsend
  | step before e hs' ha' hfb' ih =>
    next u v st' =>
    obtain ⟨hinv, htotal⟩ := ih
    obtain ⟨st, hs, ha, hfb⟩ := before.strip
    obtain ⟨rfl, rfl, rfl⟩ := htotal st hs
    refine ⟨stepKeepsInvariant u v hinv e, fun x hx => ?_⟩
    cases hs'.symm.trans hx
    obtain ⟨-, -, hgpio, hhz, -⟩ := (step_strip e hs hs').configuration
    have hsum := trace_append_owed (s := u.takeMove) hinv.takeMove e ((u.takeMove_stripAt h).trans hs) hs' ha ha'
      (hfb'.trans hfb.symm)
    rw [State.takeMove_wire] at hsum
    exact ⟨hgpio, hhz, hsum⟩

/-- Just started, a good strip owes its frame (R97, R146). -/
theorem Strip.Ok.txStart_owed {c : Config} {st : Strip} (hok : st.Ok c) (ha : st.active = false) :
    st.txStart.owed = encodeFrame st.profile st.fbBytes := by
  have hq : st.txStart.symmem = [] := hok.symmem_idle ha
  rw [Strip.owed, hq]
  rfl

/-- Settles O48: TX_START owes the frame, the transmission pays it on the wire, and at TX_DONE nothing is owed. -/
theorem transmissionPutsTheFrameOnTheWire : Obligations.TransmissionPutsTheFrameOnTheWire := by
  intro s s₁ t h st st' hinv hs hmove hen e ht hs'
  obtain ⟨-, ha, -⟩ := Strip.txStartEnabled_iff.mp hen
  have hstart : s₁ = s.takeMove.setStrip h st.txStart := by
    have hrun := runMove_txStart (s := s.takeMove) ((s.takeMove_stripAt h).trans hs) hen
    rw [← hmove] at hrun
    exact Host.Outcome.next.inj (e.symm.trans hrun)
  have hsend : Sending h st.gpio st.resolutionHz
      ((s.wire st.gpio).trace ++ segmentsOf st.resolutionHz (encodeFrame st.profile st.fbBytes)) s₁ := by
    refine ⟨stepKeepsInvariant s s₁ hinv e, fun x hx => ?_⟩
    rw [hstart, setStrip_at ((s.takeMove_stripAt h).trans hs) rfl] at hx
    cases hx
    rw [hstart, State.setStrip_wire, State.takeMove_wire, (hinv.live hs).txStart_owed ha]
    exact ⟨rfl, rfl, rfl⟩
  obtain ⟨-, -, htotal⟩ := (hsend.transmitting ht).strip st' hs'
  refine ⟨htotal, fun hdone => ?_⟩
  obtain ⟨-, hc, hq⟩ := Strip.txDoneEnabled_iff.mp hdone
  have howed : st'.owed = [] := by
    rw [Strip.owed, hq, List.nil_append, Strip.toEncode, hc]
  rwa [howed, segmentsOf_nil, List.append_nil] at htotal

end Sys2Proof.Machine

/-! PROOFS. Executions and weak fairness (R58, D35): accepted transmissions complete, and a silent host's block comes to
rest. -/

namespace Sys2Proof.Machine

/-! ### One time of an execution -/

section Execution

variable {states : Nat → State} {moves : Nat → Move} {n : Nat}

/-- Each state of an execution from a good state is good. -/
theorem IsExecution.inv (hx : IsExecution states moves) (h0 : (states 0).Inv) (n : Nat) : (states n).Inv := by
  induction n with
  | zero => exact h0
  | succ n ih =>
    obtain ⟨s, hsame, e⟩ := hx n
    exact (State.Inv.sameBlock hsame ih).runMove e

/-- An execution never changes the parameters. -/
theorem IsExecution.config (hx : IsExecution states moves) (n : Nat) : (states n).config = (states 0).config := by
  induction n with
  | zero => rfl
  | succ n ih =>
    obtain ⟨s, hsame, e⟩ := hx n
    rw [(runMove_inputs e).1, ← ih, hsame]

/-- What a time of an execution does to one slot. -/
theorem IsExecution.slot (hx : IsExecution states moves) (n h : Nat) :
    ∃ s, SameBlock (states n) s ∧
      SlotEffect s h (moves n) ((states n).stripAt h) ((states (n + 1)).stripAt h) := by
  obtain ⟨s, hsame, e⟩ := hx n
  have hslot : s.stripAt h = (states n).stripAt h := State.stripAt_congr (by rw [hsame]) h
  exact ⟨s, hsame, hslot ▸ runMove_slot e h⟩

end Execution

section Strip

variable {states : Nat → State} {moves : Nat → Move} {h n : Nat} {st st' : Strip}

/-- What a time of an execution does to a strip that stays Live. -/
theorem IsExecution.strip (hx : IsExecution states moves) (hs : (states n).stripAt h = some st)
    (hs' : (states (n + 1)).stripAt h = some st') :
    StripEffect (states n).config.memSymbols h st (moves n) st' := by
  obtain ⟨s, hsame, e⟩ := hx n
  have hconfig : s.config = (states n).config := by rw [hsame]
  rw [← hconfig]
  exact runMove_strip e ((State.stripAt_congr (by rw [hsame]) h).trans hs) hs'

/-- A strip with work stays Live. -/
theorem IsExecution.keeps_busy (hx : IsExecution states moves) (hs : (states n).stripAt h = some st)
    (hocc : 0 < st.occupancy) : ∃ st', (states (n + 1)).stripAt h = some st' := by
  obtain ⟨s, hsame, e⟩ := hx n
  exact runMove_keeps_busy e ((State.stripAt_congr (by rw [hsame]) h).trans hs) hocc

/-- A step that works on a transmission and is taken where it is enabled takes work away. -/
theorem IsExecution.works (hx : IsExecution states moves) (hinv : (states n).Inv)
    (hs : (states n).stripAt h = some st) (hm : WorksOn h (moves n)) (he : (states n).enabled (moves n) = true) :
    ∃ st', (states (n + 1)).stripAt h = some st' ∧ st'.workLeft < st.workLeft := by
  obtain ⟨s, hsame, e⟩ := hx n
  have he' : s.enabled (moves n) = true := by rw [← he, hsame]; rfl
  obtain ⟨t, st', ht, hs', hlt, -⟩ := worksOn_enabled_lowers (State.Inv.sameBlock hsame hinv)
    ((State.stripAt_congr (by rw [hsame]) h).trans hs) hm he'
  have hnext : states (n + 1) = { t with schedule := s.schedule } :=
    Host.Outcome.next.inj (e.symm.trans (ht s.schedule))
  exact ⟨st', hnext ▸ hs', hlt⟩

/-- Where the move taken changes the strip of its slot alone, the next state holds the changed strip. -/
theorem IsExecution.next_strip (hx : IsExecution states moves) (hs : (states n).stripAt h = some st)
    (hrun : ∀ s, s.stripAt h = some st → runMove (moves n) s = .next (s.setStrip h st')) :
    (states (n + 1)).stripAt h = some st' := by
  obtain ⟨s, hsame, e⟩ := hx n
  have hs' : s.stripAt h = some st := (State.stripAt_congr (by rw [hsame]) h).trans hs
  have hnext : states (n + 1) = s.setStrip h st' := Host.Outcome.next.inj (e.symm.trans (hrun s hs'))
  exact setStrip_at hs' (by rw [hnext])

/-- A TX_START taken where it is enabled is made. -/
theorem IsExecution.starts (hx : IsExecution states moves) (hs : (states n).stripAt h = some st)
    (hm : moves n = .txStart h) (he : st.txStartEnabled = true) : (states (n + 1)).stripAt h = some st.txStart :=
  hx.next_strip hs fun _ hs' => hm ▸ runMove_txStart hs' he

/-- A TX_DONE taken where it is enabled is made. -/
theorem IsExecution.ends (hx : IsExecution states moves) (hs : (states n).stripAt h = some st)
    (hm : moves n = .txDone h) (he : st.txDoneEnabled = true) : (states (n + 1)).stripAt h = some st.txDone :=
  hx.next_strip hs fun _ hs' => hm ▸ runMove_txDone hs' he

/-- The rule of weak fairness: where `P` enables `m` and lasts until `m` is taken or `Q` holds, and the step taken under
`P` gives `Q`, `Q` holds in the end. -/
theorem WeaklyFair.leads_to (hf : WeaklyFair states moves) {m : Move} (hm : internalOf h m) {P Q : Nat → Prop}
    (h0 : P n) (hen : ∀ k, n ≤ k → P k → (states k).enabled m = true)
    (hstep : ∀ k, n ≤ k → P k → Q (k + 1) ∨ (moves k ≠ m ∧ P (k + 1))) : ∃ k, n ≤ k ∧ Q k := by
  by_contra hnever
  have hnot : ∀ k, n ≤ k → ¬ Q (k + 1) := fun k hk hq => hnever ⟨k + 1, Nat.le_succ_of_le hk, hq⟩
  have hP : ∀ k, n ≤ k → P k := by
    intro k hk
    induction k, hk using Nat.le_induction with
    | base => exact h0
    | succ k hk ih => exact ((hstep k hk ih).resolve_left (hnot k hk)).2
  obtain ⟨k, hk, htaken⟩ := hf h m hm n fun k hk => hen k hk (hP k hk)
  exact ((hstep k hk (hP k hk)).resolve_left (hnot k hk)).1 htaken

/-! ### A transmission in flight ends -/

/-- The time `k` takes a TX_DONE of slot `h` that is enabled: one completion. -/
def Completes (states : Nat → State) (moves : Nat → Move) (h k : Nat) : Prop :=
  moves k = .txDone h ∧ (states k).enabled (.txDone h) = true

theorem enabled_txDone {s : State} (hs : s.stripAt h = some st) : s.enabled (.txDone h) = st.txDoneEnabled := by
  simp only [State.enabled, hs, Option.any_some]

/-- What is left to do does not depend on what a host command changes. -/
theorem HostChange.workLeft_eq (hc : HostChange st st') : st'.workLeft = st.workLeft := by
  have hlen : st'.owed.length = st.owed.length := by
    rw [hc.frame]
    cases hstate : st.enc.state <;> simp [Strip.owed, Strip.toEncode, hstate]
    rfl
  have hfbLen : st'.fbLen = st.fbLen := by
    rw [hc.frame]
    rfl
  rw [Strip.workLeft_eq, Strip.workLeft_eq st, hlen, hc.enc_eq, hc.active_eq, hfbLen]

/-- Whether a step that works on a transmission is enabled is read from flight, encoder and symbol memory alone. -/
theorem enabled_worksOn_congr {s t : State} {m : Move} (hm : WorksOn h m) (hs : s.stripAt h = some st)
    (ht : t.stripAt h = some st') (hconfig : t.config = s.config) (ha : st'.active = st.active)
    (he : st'.enc = st.enc) (hq : st'.symmem = st.symmem) : t.enabled m = s.enabled m := by
  rcases hm with rfl | rfl | rfl <;> simp only [State.enabled, hs, ht, Option.any_some]
  · rw [Bool.eq_iff_iff, Strip.encEnabled_iff, Strip.encEnabled_iff, hconfig, ha, he, hq]
  · rw [ha, hq]
  · rw [Bool.eq_iff_iff, Strip.txDoneEnabled_iff, Strip.txDoneEnabled_iff, ha, he, hq]

/-- The strip of slot `h` is in flight with `w` work left, and the step `m` is enabled. -/
def InFlight (h w : Nat) (m : Move) (s : State) : Prop :=
  ∃ st, s.stripAt h = some st ∧ st.active = true ∧ st.workLeft = w ∧ s.enabled m = true

/-- The strip of slot `h` is in flight with less than `w` work left. -/
def Progressed (h w : Nat) (s : State) : Prop :=
  ∃ st, s.stripAt h = some st ∧ st.active = true ∧ st.workLeft < w

/-- One time of a transmission in flight that does not end it: work is taken away, or an enabled step that works on it
stays enabled and is not the move of this time. -/
theorem IsExecution.inFlight_step (hx : IsExecution states moves) (hinv : (states n).Inv) {w : Nat} {m : Move}
    (hm : WorksOn h m) (hflight : InFlight h w m (states n)) (hno : ¬ Completes states moves h n) :
    Progressed h w (states (n + 1)) ∨ (moves n ≠ m ∧ InFlight h w m (states (n + 1))) := by
  obtain ⟨x, hsx, hax, hwx, hex⟩ := hflight
  have hocc : 0 < x.occupancy := by
    rw [Strip.occupancy, hax]
    exact Nat.succ_pos _
  obtain ⟨y, hsy⟩ := hx.keeps_busy hsx hocc
  have hconfig : (states (n + 1)).config = (states n).config := (hx.config _).trans (hx.config _).symm
  have heff := hx.strip hsx hsy
  have hworks := hx.works hinv hsx
  simp only [Completes, enabled_txDone hsx] at hno
  generalize moves n = m' at heff hworks hno ⊢
  cases heff with
  | same =>
    refine .inr ⟨?_, x, hsy, hax, hwx, (enabled_worksOn_congr hm hsx hsy hconfig rfl rfl rfl).trans hex⟩
    rintro rfl
    obtain ⟨z, hsz, hlt⟩ := hworks hm hex
    cases hsy.symm.trans hsz
    exact Nat.lt_irrefl _ hlt
  | host _ _ _ hc =>
    refine .inr ⟨?_, y, hsy, hc.active_eq.trans hax, hc.workLeft_eq.trans hwx,
      (enabled_worksOn_congr hm hsx hsy hconfig hc.active_eq hc.enc_eq hc.symmem_eq).trans hex⟩
    rintro rfl
    simp [WorksOn] at hm
  | txStart hen =>
    obtain ⟨-, hidle, -⟩ := Strip.txStartEnabled_iff.mp hen
    exact absurd (hidle.symm.trans hax) Bool.false_ne_true
  | enc hen => exact .inl ⟨_, hsy, (x.encNext_active _).trans hax, hwx ▸ (hinv.live hsx).workLeft_encNext hen⟩
  | seq d rest _ hq => exact .inl ⟨_, hsy, hax, hwx ▸ Strip.workLeft_seqStep hq⟩
  | txDone hen => exact absurd ⟨rfl, hen⟩ hno

/-- In a fair execution of good states a transmission in flight ends, for its work cannot fall for ever. -/
theorem WeaklyFair.completes_of_active (hf : WeaklyFair states moves) (hx : IsExecution states moves)
    (hinv : ∀ k, (states k).Inv) (hs : (states n).stripAt h = some st) (ha : st.active = true) :
    ∃ k, n ≤ k ∧ Completes states moves h k := by
  induction hw : st.workLeft using Nat.strong_induction_on generalizing n st with
  | _ w ih =>
    by_contra hnever
    obtain ⟨m, hm, he⟩ := exists_worksOn_enabled (hinv n) hs ha
    obtain ⟨k, hk, x, hsx, hax, hlt⟩ := hf.leads_to hm.internal (P := fun k => InFlight h w m (states k))
      (Q := fun k => Progressed h w (states k)) ⟨st, hs, ha, hw, he⟩ (fun _ _ ⟨_, _, _, _, hen⟩ => hen)
      fun k hk hflight => hx.inFlight_step (hinv k) hm hflight fun hc => hnever ⟨k, hk, hc⟩
    obtain ⟨j, hj, hc⟩ := ih x.workLeft hlt hsx hax rfl
    exact hnever ⟨j, Nat.le_trans hk hj, hc⟩

/-! ### A queued transmission starts -/

/-- The strip of slot `h` has a transmission queued and none in flight. -/
def Queued (h : Nat) (s : State) : Prop :=
  ∃ st, s.stripAt h = some st ∧ st.active = false ∧ 0 < st.pending

/-- The strip of slot `h` has a transmission in flight. -/
def Started (h : Nat) (s : State) : Prop := ∃ st, s.stripAt h = some st ∧ st.active = true

/-- A good strip with a transmission queued and none in flight can start it (R35 (v), R146). -/
theorem Strip.Ok.txStartEnabled {c : Config} (hok : st.Ok c) (ha : st.active = false) (hp : 0 < st.pending) :
    st.txStartEnabled = true :=
  Strip.txStartEnabled_iff.mpr ⟨hok.enabled_of_busy (Nat.add_pos_left hp _), ha, hp⟩

/-- One time of a queued transmission: it starts, or stays queued and the move is not its TX_START. -/
theorem IsExecution.queued_step (hx : IsExecution states moves) (hinv : (states n).Inv)
    (hqueued : Queued h (states n)) :
    Started h (states (n + 1)) ∨ (moves n ≠ .txStart h ∧ Queued h (states (n + 1))) := by
  obtain ⟨x, hsx, hax, hpx⟩ := hqueued
  obtain ⟨y, hsy⟩ := hx.keeps_busy hsx (Nat.add_pos_left hpx _)
  have hidle : x.active ≠ true := hax ▸ Bool.false_ne_true
  have heff := hx.strip hsx hsy
  have hstart := hx.starts hsx
  generalize moves n = m' at heff hstart ⊢
  cases heff with
  | same =>
    refine .inr ⟨?_, x, hsy, hax, hpx⟩
    rintro rfl
    have hnext := hsy.symm.trans (hstart rfl ((hinv.live hsx).txStartEnabled hax hpx))
    exact hidle (congrArg Strip.active (Option.some.inj hnext))
  | host _ _ _ hc => exact .inr ⟨nofun, y, hsy, hc.active_eq.trans hax, Nat.lt_of_lt_of_le hpx hc.pending_le⟩
  | txStart => exact .inl ⟨_, hsy, rfl⟩
  | enc he => exact absurd (Strip.encEnabled_iff.mp he).1 hidle
  | seq _ _ ha => exact absurd ha hidle
  | txDone he => exact absurd (Strip.txDoneEnabled_iff.mp he).1 hidle

/-- In a fair execution of good states a strip with work completes a transmission. -/
theorem WeaklyFair.completes (hf : WeaklyFair states moves) (hx : IsExecution states moves)
    (hinv : ∀ k, (states k).Inv) (hs : (states n).stripAt h = some st) (hocc : 0 < st.occupancy) :
    ∃ k, n ≤ k ∧ Completes states moves h k := by
  cases ha : st.active with
  | true => exact hf.completes_of_active hx hinv hs ha
  | false =>
    have hp : 0 < st.pending := by simpa [Strip.occupancy, ha] using hocc
    obtain ⟨k, hk, x, hsx, hax⟩ := hf.leads_to (m := .txStart h) (.inl rfl) (P := fun k => Queued h (states k))
      (Q := fun k => Started h (states k)) ⟨st, hs, ha, hp⟩
      (fun k _ ⟨x, hsx, hax, hpx⟩ => by
        simp only [State.enabled, hsx, Option.any_some, ((hinv k).live hsx).txStartEnabled hax hpx])
      fun k _ hqueued => hx.queued_step (hinv k) hqueued
    obtain ⟨j, hj, hc⟩ := hf.completes_of_active hx hinv hsx hax
    exact ⟨j, Nat.le_trans hk hj, hc⟩

/-! ### Completions, one after the other -/

theorem completions_succ_of_completes (hc : Completes states moves h n) : completions states moves h n (n + 1) = 1 := by
  obtain ⟨hm, he⟩ := hc
  simp [completions, hm, he]

theorem completions_succ_of_not (hc : ¬ Completes states moves h n) : completions states moves h n (n + 1) = 0 := by
  simpa [completions, List.countP_cons, Completes] using hc

/-- Only a TX_DONE takes from the occupancy, and it takes one. -/
theorem StripEffect.occupancy_le {mem : Nat} {m : Move} (e : StripEffect mem h st m st') :
    st.occupancy ≤ st'.occupancy ∨ (m = .txDone h ∧ st.txDoneEnabled = true ∧ st.occupancy = st'.occupancy + 1) := by
  cases e with
  | same | seq => exact .inl (Nat.le_refl _)
  | host _ _ _ hc =>
    left
    rw [Strip.occupancy, Strip.occupancy, hc.active_eq]
    exact Nat.add_le_add_right hc.pending_le _
  | txStart he => exact .inl (Strip.txStart_occupancy he).ge
  | enc => exact .inl (by simp [Strip.occupancy])
  | txDone he => exact .inr ⟨rfl, he, (Strip.txDone_occupancy (Strip.txDoneEnabled_iff.mp he).1).symm⟩

/-- Where a strip with work completes a transmission at time `n + d`, some time up to there is the first to do so; the
strip then holds one transmission less at most. -/
theorem IsExecution.first_completion (hx : IsExecution states moves) {d : Nat}
    (hs : (states n).stripAt h = some st) (hocc : 0 < st.occupancy) (hc : Completes states moves h (n + d)) :
    ∃ k x, n ≤ k ∧ completions states moves h n k = 1 ∧ (states k).stripAt h = some x ∧
      st.occupancy ≤ x.occupancy + 1 := by
  induction d generalizing n st with
  | zero =>
    obtain ⟨y, hsy⟩ := hx.keeps_busy hs hocc
    have hle := (hx.strip hs hsy).occupancy_le
    exact ⟨n + 1, y, Nat.le_succ n, completions_succ_of_completes hc, hsy, by omega⟩
  | succ d ih =>
    obtain ⟨y, hsy⟩ := hx.keeps_busy hs hocc
    have hle := (hx.strip hs hsy).occupancy_le
    by_cases hnow : Completes states moves h n
    · exact ⟨n + 1, y, Nat.le_succ n, completions_succ_of_completes hnow, hsy, by omega⟩
    · have hkept : st.occupancy ≤ y.occupancy :=
        hle.resolve_right fun ⟨hm, he, _⟩ => hnow ⟨hm, (enabled_txDone hs).trans he⟩
      obtain ⟨k, x, hk, hone, hsx, hlex⟩ := ih hsy (Nat.lt_of_lt_of_le hocc hkept) (by rwa [Nat.add_right_comm])
      refine ⟨k, x, Nat.le_of_succ_le hk, ?_, hsx, Nat.le_trans hkept hlex⟩
      rw [completions_split _ _ _ _ (Nat.le_succ n) hk, completions_succ_of_not hnow, hone]

/-- In a fair execution of good states a strip completes as many transmissions as it holds, and fewer before that. -/
theorem WeaklyFair.exists_completions (hf : WeaklyFair states moves) (hx : IsExecution states moves)
    (hinv : ∀ k, (states k).Inv) {c : Nat} (hs : (states n).stripAt h = some st) (hc : c ≤ st.occupancy) :
    ∃ k, n ≤ k ∧ completions states moves h n k = c := by
  induction c generalizing n st with
  | zero => exact ⟨n, Nat.le_refl n, completions_self states moves h n⟩
  | succ c ih =>
    have hocc : 0 < st.occupancy := Nat.lt_of_lt_of_le (Nat.succ_pos c) hc
    obtain ⟨j, hj, hdone⟩ := hf.completes hx hinv hs hocc
    rw [← Nat.add_sub_cancel' hj] at hdone
    obtain ⟨k, x, hk, hone, hsx, hle⟩ := hx.first_completion hs hocc hdone
    obtain ⟨l, hl, hrest⟩ := ih hsx (by omega)
    refine ⟨l, Nat.le_trans hk hl, ?_⟩
    rw [completions_split _ _ _ _ hk hl, hone, hrest, Nat.add_comm]

end Strip

/-- Settles O59: each transmission a strip holds is completed in its turn. -/
theorem acceptedTransmissionsComplete : Obligations.AcceptedTransmissionsComplete :=
  fun _ _ _ _ _ hx hf h0 hs => hf.exists_completions hx (hx.inv h0) hs (Nat.le_refl _)

/-! ### A host gone silent -/

section Silent

variable {states : Nat → State} {moves : Nat → Move} {h n : Nat} {st : Strip}

/-- No command, no new strip: an Absent slot stays Absent. -/
theorem SlotEffect.silent_absent {s : State} {m : Move} {o : Option Strip} (e : SlotEffect s h m none o)
    (hm : moveIsIssue m = false) : o = none := by
  cases e with
  | same => rfl
  | created => cases hm

/-- No command, no new work: a Live strip stays Live and its occupancy does not rise. -/
theorem SlotEffect.silent_live {s : State} {m : Move} {o : Option Strip} (e : SlotEffect s h m (some st) o)
    (hm : moveIsIssue m = false) : ∃ x, o = some x ∧ x.occupancy ≤ st.occupancy := by
  cases e with
  | same => exact ⟨st, rfl, Nat.le_refl _⟩
  | command | waits | destroyed => cases hm
  | txStart _ he => exact ⟨_, rfl, (Strip.txStart_occupancy he).le⟩
  | enc => exact ⟨_, rfl, by simp [Strip.occupancy]⟩
  | seq => exact ⟨_, rfl, Nat.le_refl _⟩
  | txDone _ he =>
    exact ⟨_, rfl, (Strip.txDone_occupancy (Strip.txDoneEnabled_iff.mp he).1).le.trans' (Nat.le_succ _)⟩

/-- No command, no new wait. -/
theorem runMove_silent_wait {m : Move} {s t : State} {task : Nat} (e : runMove m s = .next t)
    (hm : moveIsIssue m = false) (hw : s.waitOf task = none) : t.waitOf task = none := by
  have hend : ∀ {k w} (code : ResultCode), s.waitOf k = some w → (s.endWait k code).waitOf task = none := by
    intro k w code hk
    rw [State.endWait, State.respond_waitOf, State.setWait_waitOf (State.waitOf_lt hk), hw, ite_self]
  cases runMove_cases e with
  | idle | txStart | enc | seq | txDone => exact hw
  | illegal | command => cases hm
  | waitComplete _ _ _ hk => exact hend _ hk
  | waitTimeout _ _ _ hk => exact hend _ hk

/-- What holds from some time on of each `i` below `bound` holds of all of them from some time on. -/
theorem eventually_forall_lt {bound : Nat} {P : Nat → Nat → Prop}
    (hP : ∀ i < bound, ∃ k, n ≤ k ∧ ∀ j, k ≤ j → P i j) :
    ∃ k, n ≤ k ∧ ∀ j, k ≤ j → ∀ i < bound, P i j := by
  induction bound with
  | zero => exact ⟨n, Nat.le_refl n, fun _ _ _ hi => absurd hi (Nat.not_lt_zero _)⟩
  | succ bound ih =>
    obtain ⟨k, hk, hbelow⟩ := ih fun i hi => hP i (Nat.lt_succ_of_lt hi)
    obtain ⟨l, -, hlast⟩ := hP bound (Nat.lt_succ_self bound)
    refine ⟨max k l, Nat.le_trans hk (Nat.le_max_left k l), fun j hj i hi => ?_⟩
    rcases Nat.lt_succ_iff_lt_or_eq.mp hi with hi | rfl
    · exact hbelow j (Nat.le_trans (Nat.le_max_left k l) hj) i hi
    · exact hlast j (Nat.le_trans (Nat.le_max_right k l) hj)

/-- The host issues nothing from time `n` on. -/
abbrev SilentFrom (moves : Nat → Move) (n : Nat) : Prop := ∀ k, n ≤ k → moveIsIssue (moves k) = false

theorem IsExecution.silent_absent (hx : IsExecution states moves) (hq : SilentFrom moves n)
    (hs : (states n).stripAt h = none) {j : Nat} (hj : n ≤ j) : (states j).stripAt h = none := by
  induction j, hj using Nat.le_induction with
  | base => exact hs
  | succ j hj ih =>
    obtain ⟨s, -, e⟩ := hx.slot j h
    rw [ih] at e
    exact e.silent_absent (hq j hj)

theorem IsExecution.silent_live (hx : IsExecution states moves) (hq : SilentFrom moves n)
    (hs : (states n).stripAt h = some st) {j : Nat} (hj : n ≤ j) :
    ∃ x, (states j).stripAt h = some x ∧ x.occupancy ≤ st.occupancy := by
  induction j, hj using Nat.le_induction with
  | base => exact ⟨st, hs, Nat.le_refl _⟩
  | succ j hj ih =>
    obtain ⟨x, hsx, hle⟩ := ih
    obtain ⟨s, -, e⟩ := hx.slot j h
    rw [hsx] at e
    obtain ⟨y, hsy, hle'⟩ := e.silent_live (hq j hj)
    exact ⟨y, hsy, Nat.le_trans hle' hle⟩

theorem IsExecution.silent_wait (hx : IsExecution states moves) (hq : SilentFrom moves n) {task : Nat}
    (hw : (states n).waitOf task = none) {j : Nat} (hj : n ≤ j) : (states j).waitOf task = none := by
  induction j, hj using Nat.le_induction with
  | base => exact hw
  | succ j hj ih =>
    obtain ⟨s, hsame, e⟩ := hx j
    exact runMove_silent_wait e (hq j hj) ((State.waitOf_congr (by rw [hsame]) task).trans ih)

/-- A strip of a silent host has no work in the end: each completion takes one transmission, and none is added. -/
theorem WeaklyFair.silent_idle (hf : WeaklyFair states moves) (hx : IsExecution states moves)
    (hinv : ∀ k, (states k).Inv) (hq : SilentFrom moves n) (hs : (states n).stripAt h = some st) :
    ∃ k x, n ≤ k ∧ (states k).stripAt h = some x ∧ x.occupancy = 0 := by
  induction ho : st.occupancy using Nat.strong_induction_on generalizing n st with
  | _ o ih =>
    rcases Nat.eq_zero_or_pos o with rfl | hpos
    · exact ⟨n, st, Nat.le_refl n, hs, ho⟩
    · obtain ⟨k, hk, hm, he⟩ := hf.completes hx hinv hs (ho ▸ hpos)
      obtain ⟨x, hsx, hle⟩ := hx.silent_live hq hs hk
      rw [enabled_txDone hsx] at he
      have hdone := Strip.txDone_occupancy (Strip.txDoneEnabled_iff.mp he).1
      obtain ⟨l, y, hl, hsy, hy⟩ := ih x.txDone.occupancy (by omega) (n := k + 1)
        (fun j hj => hq j (Nat.le_trans (Nat.le_succ_of_le hk) hj)) (hx.ends hsx hm he) rfl
      exact ⟨l, y, Nat.le_trans (Nat.le_succ_of_le hk) hl, hsy, hy⟩

/-- From some time on the slot of a silent host's strip has no work. -/
theorem WeaklyFair.slot_idle (hf : WeaklyFair states moves) (hx : IsExecution states moves)
    (hinv : ∀ k, (states k).Inv) (hq : SilentFrom moves n) (h : Nat) :
    ∃ k, n ≤ k ∧ ∀ j, k ≤ j → ∀ st, (states j).stripAt h = some st → st.occupancy = 0 := by
  cases hs : (states n).stripAt h with
  | none =>
    refine ⟨n, Nat.le_refl n, fun j hj st hst => ?_⟩
    rw [hx.silent_absent hq hs hj] at hst
    cases hst
  | some st =>
    obtain ⟨k, x, hk, hsx, hidle⟩ := hf.silent_idle hx hinv hq hs
    refine ⟨k, hk, fun j hj y hsy => ?_⟩
    obtain ⟨z, hsz, hle⟩ := hx.silent_live (fun i hi => hq i (Nat.le_trans hk hi)) hsx hj
    cases hsy.symm.trans hsz
    omega

end Silent

/-- Where no strip has work, a wait of a good state can end with Ok (R118). -/
theorem State.Inv.waitComplete_enabled {s : State} (hinv : s.Inv)
    (hidle : ∀ h st, s.stripAt h = some st → st.occupancy = 0) {task : Nat} (hw : s.waitOf task ≠ none) :
    s.enabled (.waitComplete task) = true := by
  obtain ⟨w, hw⟩ := Option.ne_none_iff_exists'.mp hw
  obtain ⟨st, hs⟩ := hinv.wait_live hw
  simp only [State.enabled, hw, hs, Option.any_some, hidle _ _ hs, beq_self_eq_true]

/-- Settles O60: every slot is idle from some time on, so all of them are; and waits, of which there are no new ones,
are over once each of them is. -/
theorem fairSilentHostReachesQuiescence : Obligations.FairSilentHostReachesQuiescence := by
  intro states moves n hx hf h0 hq
  have hinv := hx.inv h0
  obtain ⟨k, hk, hidle⟩ := eventually_forall_lt (bound := (states 0).config.nStrips)
    fun h _ => hf.slot_idle hx hinv hq h
  have hslot : ∀ j, k ≤ j → ∀ h st, (states j).stripAt h = some st → st.occupancy = 0 := by
    intro j hj h st hs
    have hlt := State.stripAt_lt hs
    rw [(hinv j).slots_length, hx.config j] at hlt
    exact hidle j hj h hlt st hs
  refine ⟨k, hk,
    fun j hj => ⟨fun st hst => ?_, fun task => (hinv j).waitComplete_enabled (hslot j hj)⟩, fun hend => ?_⟩
  · obtain ⟨h, hs⟩ := State.mem_liveStrips.mp hst
    exact Strip.occupancy_eq_zero.mp (hslot j hj h st hs)
  · obtain ⟨q, hkq, hnone⟩ := eventually_forall_lt (n := k) (bound := (states 0).config.nTasks)
      (P := fun task j => (states j).waitOf task = none) fun task _ => by
        obtain ⟨i, hi, hw⟩ := hend task
        exact ⟨i, hi, fun j hj => hx.silent_wait (fun l hl => hq l (Nat.le_trans (Nat.le_trans hk hi) hl)) hw hj⟩
    refine ⟨q, hkq, fun j hj task htask => ?_⟩
    obtain ⟨i, hi⟩ := List.mem_iff_getElem?.mp htask
    have hlt := (List.getElem?_eq_some_iff.mp hi).1
    rw [(hinv j).tasks_length, hx.config j] at hlt
    have hw := hnone j hj i hlt
    rwa [State.waitOf, hi] at hw

end Sys2Proof.Machine
